-- ==== Sys2Proof/Word.lean ====
section
/-! DEFINITION. The word types of the CORE: every value the spec treats as bits has its exact width
(00_scope R10: all quantities are unsigned, nothing is sign-extended). -/

namespace Sys2Proof

/-- An 8-bit value: a general register, a timer, a memory cell, the immediate `NN` (10_state R21, R27, R30). -/
abbrev Byte := BitVec 8

/-- A 16-bit value: an instruction word, `pc`, `I`, `IR`, a stack entry (10_state R23, R24, R26, R33). -/
abbrev Word := BitVec 16

/-- A 4-bit register index, the fields `X` and `Y`; all sixteen values are valid (30_encoding R73). -/
abbrev RegIdx := BitVec 4

/-- The 4-bit literal `N` (30_encoding R73). -/
abbrev Nibble := BitVec 4

/-- The 12-bit immediate address `NNN` (30_encoding R73). -/
abbrev Addr12 := BitVec 12

end Sys2Proof
end

