-- ==== Sys2Proof/Config.lean ====
section
/-! DEFINITION. The parameters of 00_scope R6, each at the value the spec states, and the free value of the random
instruction. Two parameters of R6 stand elsewhere, where a later repair may still mend them: `FONT` is
`Machine.font` (Machine/Font.lean) and `LDST_SUBOP` is `ldstSubop` (Decode.lean). `TICK_HZ` is the host's duty: no rule
depends on it (R257), and no definition here uses it. -/

namespace Sys2Proof

/-- `NREG`: the number of general registers. -/
@[simp] abbrev Config.nreg : Nat := 16

/-- `FLAG_REG`: the index of the flag register VF (10_state R22). -/
@[simp] abbrev Config.flagReg : RegIdx := 15

/-- `MEM_SIZE`: cells of memory, addresses 0x000 to 0xFFF. -/
@[simp] abbrev Config.memSize : Nat := 0x1000

/-- `FONT_BASE`: the first cell of the font region. -/
@[simp] abbrev Config.fontBase : Nat := 0x050

/-- `FONT_END`: the first cell after the font region. -/
@[simp] abbrev Config.fontEnd : Nat := 0x0A0

/-- `GLYPH_BYTES`: bytes per glyph. -/
@[simp] abbrev Config.glyphBytes : Nat := 5

/-- `PROG_BASE`: the first cell of a loaded program and the reset value of `pc`. -/
@[simp] abbrev Config.progBase : Nat := 0x200

/-- `STACK_DEPTH`: call-stack entries. -/
@[simp] abbrev Config.stackDepth : Nat := 16

/-- `DISP_ROWS`: display rows. -/
@[simp] abbrev Config.dispRows : Nat := 32

/-- `DISP_COLS`: display columns. -/
@[simp] abbrev Config.dispCols : Nat := 64

/-- `NKEYS`: key-state flags. -/
@[simp] abbrev Config.nkeys : Nat := 16

/-- `ILEN`: bytes per instruction. -/
@[simp] abbrev Config.ilen : Nat := 2

/-- `TICK_HZ`: the intended rate of `tick()`; informational (00_scope R6, 70_reset_and_hazards R257). -/
@[simp] abbrev Config.tickHz : Nat := 60

/-- The random byte of the `k`-th draw, `RngByte()` of 42_alu R134: a FREE VALUE. It has no body, so nothing can be proved
of it and a statement that speaks of it holds for every byte. DESIGN CHOICE (assumption 6), safe. -/
opaque Config.rngByte : Nat → Byte

end Sys2Proof
end

