-- ==== Sys2Proof/Syntax.lean ====
section
/-! DEFINITION. The instructions of the CORE: one constructor per row of spec/opcode_table.json (30_encoding R75), in the
table's order. Operands have exactly the width of their fields, so every field value is an operand (R73); the ignored bits of
R76 are no operand. -/

namespace Sys2Proof

/-- The 36 instructions of 30_encoding R75. -/
inductive Instr where
  /-- row 1, `CLS` -/
  | cls
  /-- row 2, `RET` -/
  | ret
  /-- row 3, `JP NNN` -/
  | jp (nnn : Addr12)
  /-- row 4, `CALL NNN` -/
  | call (nnn : Addr12)
  /-- row 5, `SE Vx, NN` -/
  | seVxNN (x : RegIdx) (nn : Byte)
  /-- row 6, `SNE Vx, NN` -/
  | sneVxNN (x : RegIdx) (nn : Byte)
  /-- row 7, `SE Vx, Vy` -/
  | seVxVy (x y : RegIdx)
  /-- row 8, `LD Vx, NN` -/
  | ldVxNN (x : RegIdx) (nn : Byte)
  /-- row 9, `ADD Vx, NN` -/
  | addVxNN (x : RegIdx) (nn : Byte)
  /-- row 10, `LD Vx, Vy` -/
  | ldVxVy (x y : RegIdx)
  /-- row 11, `OR Vx, Vy` -/
  | orVxVy (x y : RegIdx)
  /-- row 12, `AND Vx, Vy` -/
  | andVxVy (x y : RegIdx)
  /-- row 13, `XOR Vx, Vy` -/
  | xorVxVy (x y : RegIdx)
  /-- row 14, `ADD Vx, Vy` -/
  | addVxVy (x y : RegIdx)
  /-- row 15, `SUB Vx, Vy` -/
  | subVxVy (x y : RegIdx)
  /-- row 16, `SHR Vx, Vy` -/
  | shrVxVy (x y : RegIdx)
  /-- row 17, `SUBN Vx, Vy` -/
  | subnVxVy (x y : RegIdx)
  /-- row 18, `SHL Vx, Vy` -/
  | shlVxVy (x y : RegIdx)
  /-- row 19, `SNE Vx, Vy` -/
  | sneVxVy (x y : RegIdx)
  /-- row 20, `LD I, NNN` -/
  | ldINNN (nnn : Addr12)
  /-- row 21, `JP V0, NNN` -/
  | jpV0 (nnn : Addr12)
  /-- row 22, `RND Vx, NN` -/
  | rnd (x : RegIdx) (nn : Byte)
  /-- row 23, `DRW Vx, Vy, N` -/
  | drw (x y : RegIdx) (n : Nibble)
  /-- row 24, `SKP Vx` -/
  | skp (x : RegIdx)
  /-- row 25, `SKNP Vx` -/
  | sknp (x : RegIdx)
  /-- row 26, `LD Vx, DT` -/
  | ldVxDT (x : RegIdx)
  /-- row 27, `LD Vx, K` -/
  | ldVxK (x : RegIdx)
  /-- row 28, `LD DT, Vx` -/
  | ldDTVx (x : RegIdx)
  /-- row 29, `LD ST, Vx` -/
  | ldSTVx (x : RegIdx)
  /-- row 30, `ADD I, Vx` -/
  | addIVx (x : RegIdx)
  /-- row 31, `LD F, Vx` -/
  | ldFVx (x : RegIdx)
  /-- row 32, `LD B, Vx` -/
  | ldBVx (x : RegIdx)
  /-- row 33, `LD [I], Vx` -/
  | ldMemVx (x : RegIdx)
  /-- row 34, `LD Vx, [I]` -/
  | ldVxMem (x : RegIdx)
  /-- row 35, `LD Vx, ST`: has a word only when the parameter `LDST_SUBOP` is set (30_encoding R81) -/
  | ldVxST (x : RegIdx)
  /-- row 36, `NOP`: any other word (30_encoding R77, 40_fetch_dispatch R96) -/
  | nop
  deriving DecidableEq, Repr

end Sys2Proof
end

