-- ==== Sys2Proof/WellFormed.lean ====
section
/-! DEFINITION. Which instructions the CORE can be given, as a function of the parameter `LDST_SUBOP`. Every operand has
its field's exact width, so the one thing that can be wrong with an instruction is that no word stands for it: `LD Vx, ST`
while `LDST_SUBOP` is unset, or set to a low byte that already names another instruction (30_encoding R81). -/

namespace Sys2Proof

/-- The nine low bytes assigned under selector 0xF (30_encoding R77, rows 26 to 34 of R75). -/
def assignedF : List Byte := [0x07, 0x0A, 0x15, 0x18, 0x1E, 0x29, 0x33, 0x55, 0x65]

/-- The settings of `LDST_SUBOP` the spec allows: unset, or a byte not yet assigned (30_encoding R81). -/
def ldstLegal : Option Byte → Bool
  | none => true
  | some k => !assignedF.contains k

/-- An instruction some word stands for, under the setting `ldst` of `LDST_SUBOP`. -/
def Instr.wf (ldst : Option Byte) : Instr → Bool
  | .cls => true
  | .ret => true
  | .jp _ => true
  | .call _ => true
  | .seVxNN _ _ => true
  | .sneVxNN _ _ => true
  | .seVxVy _ _ => true
  | .ldVxNN _ _ => true
  | .addVxNN _ _ => true
  | .ldVxVy _ _ => true
  | .orVxVy _ _ => true
  | .andVxVy _ _ => true
  | .xorVxVy _ _ => true
  | .addVxVy _ _ => true
  | .subVxVy _ _ => true
  | .shrVxVy _ _ => true
  | .subnVxVy _ _ => true
  | .shlVxVy _ _ => true
  | .sneVxVy _ _ => true
  | .ldINNN _ => true
  | .jpV0 _ => true
  | .rnd _ _ => true
  | .drw _ _ _ => true
  | .skp _ => true
  | .sknp _ => true
  | .ldVxDT _ => true
  | .ldVxK _ => true
  | .ldDTVx _ => true
  | .ldSTVx _ => true
  | .addIVx _ => true
  | .ldFVx _ => true
  | .ldBVx _ => true
  | .ldMemVx _ => true
  | .ldVxMem _ => true
  | .ldVxST _ =>
    match ldst with
    | none => false
    | some k => !assignedF.contains k
  | .nop => true

end Sys2Proof
end

