-- ==== Sys2Proof/Decode.lean ====
section
/-! DEFINITION. Decoding and encoding (30_encoding). Decoding a word is total and every word has one meaning (R78); decoding
bytes rejects, by name, only a string too short to hold a word. The decoder is the two-level dispatch of R74; the opcode table
of R75 stands beside it as `opcodeRows`, so that the two can be proved equal; the encoder is written from the same table.
The numeric values are the spec's (R75); the spec marks them general knowledge (decision D11, assumption 3). -/

namespace Sys2Proof

/-- `LDST_SUBOP` of 00_scope R6: the low byte that selects `LD Vx, ST` under selector 0xF, unset by default
(30_encoding R81, decision D12; assumption 4, unsafe). -/
def ldstSubop : Option Byte := none

/-! ### Fields (30_encoding R72) -/

/-- `sel = instr[15:12]` -/
def selOf (w : Word) : BitVec 4 := w.extractLsb' 12 4

/-- `X = instr[11:8]` -/
def xOf (w : Word) : RegIdx := w.extractLsb' 8 4

/-- `Y = instr[7:4]` -/
def yOf (w : Word) : RegIdx := w.extractLsb' 4 4

/-- `N = instr[3:0]` -/
def nOf (w : Word) : Nibble := w.extractLsb' 0 4

/-- `NN = instr[7:0]` -/
def nnOf (w : Word) : Byte := w.extractLsb' 0 8

/-- `NNN = instr[11:0]` -/
def nnnOf (w : Word) : Addr12 := w.extractLsb' 0 12

/-! ### The decoder (30_encoding R74, 40_fetch_dispatch R94) -/

/-- Selector 0x0: keyed by the low byte, bits 11:8 ignored (R74, R76). -/
def decodeSel0 (w : Word) : Instr :=
  if nnOf w = 0xE0 then .cls
  else if nnOf w = 0xEE then .ret
  else .nop

/-- Selector 0x8: keyed by the low nibble (R74). -/
def decodeSel8 (w : Word) : Instr :=
  if nOf w = 0x0 then .ldVxVy (xOf w) (yOf w)
  else if nOf w = 0x1 then .orVxVy (xOf w) (yOf w)
  else if nOf w = 0x2 then .andVxVy (xOf w) (yOf w)
  else if nOf w = 0x3 then .xorVxVy (xOf w) (yOf w)
  else if nOf w = 0x4 then .addVxVy (xOf w) (yOf w)
  else if nOf w = 0x5 then .subVxVy (xOf w) (yOf w)
  else if nOf w = 0x6 then .shrVxVy (xOf w) (yOf w)
  else if nOf w = 0x7 then .subnVxVy (xOf w) (yOf w)
  else if nOf w = 0xE then .shlVxVy (xOf w) (yOf w)
  else .nop

/-- Selector 0xE: keyed by the low byte (R74). -/
def decodeSelE (w : Word) : Instr :=
  if nnOf w = 0x9E then .skp (xOf w)
  else if nnOf w = 0xA1 then .sknp (xOf w)
  else .nop

/-- Selector 0xF: keyed by the low byte (R74); `LD Vx, ST` only where `LDST_SUBOP` is set (R81). -/
def decodeSelF (ldst : Option Byte) (w : Word) : Instr :=
  if nnOf w = 0x07 then .ldVxDT (xOf w)
  else if nnOf w = 0x0A then .ldVxK (xOf w)
  else if nnOf w = 0x15 then .ldDTVx (xOf w)
  else if nnOf w = 0x18 then .ldSTVx (xOf w)
  else if nnOf w = 0x1E then .addIVx (xOf w)
  else if nnOf w = 0x29 then .ldFVx (xOf w)
  else if nnOf w = 0x33 then .ldBVx (xOf w)
  else if nnOf w = 0x55 then .ldMemVx (xOf w)
  else if nnOf w = 0x65 then .ldVxMem (xOf w)
  else if ldst = some (nnOf w) then .ldVxST (xOf w)
  else .nop

/-- The instruction a word stands for, under a setting of `LDST_SUBOP`: the primary selection on bits 15:12 (R74). The last
case is selector 0xF, the only value left. -/
def decodeWith (ldst : Option Byte) (w : Word) : Instr :=
  match selOf w with
  | 0x0#4 => decodeSel0 w
  | 0x1#4 => .jp (nnnOf w)
  | 0x2#4 => .call (nnnOf w)
  | 0x3#4 => .seVxNN (xOf w) (nnOf w)
  | 0x4#4 => .sneVxNN (xOf w) (nnOf w)
  | 0x5#4 => .seVxVy (xOf w) (yOf w)
  | 0x6#4 => .ldVxNN (xOf w) (nnOf w)
  | 0x7#4 => .addVxNN (xOf w) (nnOf w)
  | 0x8#4 => decodeSel8 w
  | 0x9#4 => .sneVxVy (xOf w) (yOf w)
  | 0xA#4 => .ldINNN (nnnOf w)
  | 0xB#4 => .jpV0 (nnnOf w)
  | 0xC#4 => .rnd (xOf w) (nnOf w)
  | 0xD#4 => .drw (xOf w) (yOf w) (nOf w)
  | 0xE#4 => decodeSelE w
  | _ => decodeSelF ldst w

/-- The instruction a word stands for on this hardware (`LDST_SUBOP` at its default). -/
def decode (w : Word) : Instr := decodeWith ldstSubop w

/-- Why a byte string is no instruction: the only reason there is (30_encoding R78). -/
inductive DecodeError where
  /-- fewer than the two bytes of an instruction (30_encoding R70) -/
  | fewerThanTwoBytes
  deriving DecidableEq, Repr

/-- Reads one instruction from the front of a byte string, high byte first (20_memory R52), and leaves the rest. -/
def decodeBytes : List Byte → Except DecodeError (Instr × List Byte)
  | hi :: lo :: rest => .ok (decode (hi ++ lo), rest)
  | [_] => .error .fewerThanTwoBytes
  | [] => .error .fewerThanTwoBytes

/-- Well-formed on this hardware. -/
abbrev Instr.WellFormed (i : Instr) : Prop := i.wf ldstSubop = true

/-! ### The encoder (30_encoding R75) -/

/-- The word of an instruction, its ignored bits 0, under a setting of `LDST_SUBOP`; none for an instruction that has no word.
`NOP` is written as 0x0000 (30_encoding R77; assumption 15). -/
def encodeWith (ldst : Option Byte) : Instr → Option Word
  | .cls => some 0x00E0#16
  | .ret => some 0x00EE#16
  | .jp nnn => some (0x1#4 ++ nnn)
  | .call nnn => some (0x2#4 ++ nnn)
  | .seVxNN x nn => some (0x3#4 ++ x ++ nn)
  | .sneVxNN x nn => some (0x4#4 ++ x ++ nn)
  | .seVxVy x y => some (0x5#4 ++ x ++ y ++ 0x0#4)
  | .ldVxNN x nn => some (0x6#4 ++ x ++ nn)
  | .addVxNN x nn => some (0x7#4 ++ x ++ nn)
  | .ldVxVy x y => some (0x8#4 ++ x ++ y ++ 0x0#4)
  | .orVxVy x y => some (0x8#4 ++ x ++ y ++ 0x1#4)
  | .andVxVy x y => some (0x8#4 ++ x ++ y ++ 0x2#4)
  | .xorVxVy x y => some (0x8#4 ++ x ++ y ++ 0x3#4)
  | .addVxVy x y => some (0x8#4 ++ x ++ y ++ 0x4#4)
  | .subVxVy x y => some (0x8#4 ++ x ++ y ++ 0x5#4)
  | .shrVxVy x y => some (0x8#4 ++ x ++ y ++ 0x6#4)
  | .subnVxVy x y => some (0x8#4 ++ x ++ y ++ 0x7#4)
  | .shlVxVy x y => some (0x8#4 ++ x ++ y ++ 0xE#4)
  | .sneVxVy x y => some (0x9#4 ++ x ++ y ++ 0x0#4)
  | .ldINNN nnn => some (0xA#4 ++ nnn)
  | .jpV0 nnn => some (0xB#4 ++ nnn)
  | .rnd x nn => some (0xC#4 ++ x ++ nn)
  | .drw x y n => some (0xD#4 ++ x ++ y ++ n)
  | .skp x => some (0xE#4 ++ x ++ 0x9E#8)
  | .sknp x => some (0xE#4 ++ x ++ 0xA1#8)
  | .ldVxDT x => some (0xF#4 ++ x ++ 0x07#8)
  | .ldVxK x => some (0xF#4 ++ x ++ 0x0A#8)
  | .ldDTVx x => some (0xF#4 ++ x ++ 0x15#8)
  | .ldSTVx x => some (0xF#4 ++ x ++ 0x18#8)
  | .addIVx x => some (0xF#4 ++ x ++ 0x1E#8)
  | .ldFVx x => some (0xF#4 ++ x ++ 0x29#8)
  | .ldBVx x => some (0xF#4 ++ x ++ 0x33#8)
  | .ldMemVx x => some (0xF#4 ++ x ++ 0x55#8)
  | .ldVxMem x => some (0xF#4 ++ x ++ 0x65#8)
  | .ldVxST x =>
    match ldst with
    | none => none
    | some k => if assignedF.contains k then none else some (0xF#4 ++ x ++ k)
  | .nop => some 0x0000#16

/-- The word of a well-formed instruction on this hardware. -/
def encode (i : Instr) : Option Word := encodeWith ldstSubop i

/-! ### The opcode table (30_encoding R75) -/

/-- One row of R75: a word belongs to it when `w AND mask = value`. -/
structure OpcodeRow where
  mask : Word
  value : Word
  instr : Word → Instr

/-- Rows 1 to 9 of R75. -/
def opcodeRowsA : List OpcodeRow :=
  [ ⟨0xF0FF, 0x00E0, fun _ => .cls⟩,
    ⟨0xF0FF, 0x00EE, fun _ => .ret⟩,
    ⟨0xF000, 0x1000, fun w => .jp (nnnOf w)⟩,
    ⟨0xF000, 0x2000, fun w => .call (nnnOf w)⟩,
    ⟨0xF000, 0x3000, fun w => .seVxNN (xOf w) (nnOf w)⟩,
    ⟨0xF000, 0x4000, fun w => .sneVxNN (xOf w) (nnOf w)⟩,
    ⟨0xF000, 0x5000, fun w => .seVxVy (xOf w) (yOf w)⟩,
    ⟨0xF000, 0x6000, fun w => .ldVxNN (xOf w) (nnOf w)⟩,
    ⟨0xF000, 0x7000, fun w => .addVxNN (xOf w) (nnOf w)⟩ ]

/-- Rows 10 to 18 of R75. -/
def opcodeRowsB : List OpcodeRow :=
  [ ⟨0xF00F, 0x8000, fun w => .ldVxVy (xOf w) (yOf w)⟩,
    ⟨0xF00F, 0x8001, fun w => .orVxVy (xOf w) (yOf w)⟩,
    ⟨0xF00F, 0x8002, fun w => .andVxVy (xOf w) (yOf w)⟩,
    ⟨0xF00F, 0x8003, fun w => .xorVxVy (xOf w) (yOf w)⟩,
    ⟨0xF00F, 0x8004, fun w => .addVxVy (xOf w) (yOf w)⟩,
    ⟨0xF00F, 0x8005, fun w => .subVxVy (xOf w) (yOf w)⟩,
    ⟨0xF00F, 0x8006, fun w => .shrVxVy (xOf w) (yOf w)⟩,
    ⟨0xF00F, 0x8007, fun w => .subnVxVy (xOf w) (yOf w)⟩,
    ⟨0xF00F, 0x800E, fun w => .shlVxVy (xOf w) (yOf w)⟩ ]

/-- Rows 19 to 25 of R75. -/
def opcodeRowsC : List OpcodeRow :=
  [ ⟨0xF000, 0x9000, fun w => .sneVxVy (xOf w) (yOf w)⟩,
    ⟨0xF000, 0xA000, fun w => .ldINNN (nnnOf w)⟩,
    ⟨0xF000, 0xB000, fun w => .jpV0 (nnnOf w)⟩,
    ⟨0xF000, 0xC000, fun w => .rnd (xOf w) (nnOf w)⟩,
    ⟨0xF000, 0xD000, fun w => .drw (xOf w) (yOf w) (nOf w)⟩,
    ⟨0xF0FF, 0xE09E, fun w => .skp (xOf w)⟩,
    ⟨0xF0FF, 0xE0A1, fun w => .sknp (xOf w)⟩ ]

/-- Rows 26 to 34 of R75. -/
def opcodeRowsD : List OpcodeRow :=
  [ ⟨0xF0FF, 0xF007, fun w => .ldVxDT (xOf w)⟩,
    ⟨0xF0FF, 0xF00A, fun w => .ldVxK (xOf w)⟩,
    ⟨0xF0FF, 0xF015, fun w => .ldDTVx (xOf w)⟩,
    ⟨0xF0FF, 0xF018, fun w => .ldSTVx (xOf w)⟩,
    ⟨0xF0FF, 0xF01E, fun w => .addIVx (xOf w)⟩,
    ⟨0xF0FF, 0xF029, fun w => .ldFVx (xOf w)⟩,
    ⟨0xF0FF, 0xF033, fun w => .ldBVx (xOf w)⟩,
    ⟨0xF0FF, 0xF055, fun w => .ldMemVx (xOf w)⟩,
    ⟨0xF0FF, 0xF065, fun w => .ldVxMem (xOf w)⟩ ]

/-- Rows 1 to 35 of R75; row 35 exists only where `LDST_SUBOP` is set (R81). Row 36 is the fall-through of `decodeByTable`. -/
def opcodeRows (ldst : Option Byte) : List OpcodeRow :=
  opcodeRowsA ++ opcodeRowsB ++ opcodeRowsC ++ opcodeRowsD ++
    match ldst with
    | none => []
    | some k => [⟨0xF0FF, 0xF000 + k.setWidth 16, fun w => .ldVxST (xOf w)⟩]

/-- R75 read as it stands: the first row whose masked bits agree, and the no-op where none does. -/
def decodeByTable (ldst : Option Byte) (w : Word) : Instr :=
  match (opcodeRows ldst).find? (fun r => w &&& r.mask == r.value) with
  | some r => r.instr w
  | none => .nop

/-! ### The bits of the opcode table's numbering -/

/-- The two bytes, as they lie in memory, of the instruction whose `nbits` table bits are `w`: high byte at the lower
address (20_memory R52). -/
def tableWordBytes (nbits w : Nat) : List Byte :=
  [BitVec.ofNat 8 (w % 2 ^ nbits / 256), BitVec.ofNat 8 (w % 2 ^ nbits)]

/-- The instruction the decoder reads from an instruction whose bits are `w`, numbered as spec/opcode_table.json numbers
them; none for a count of bits no instruction has (30_encoding R70). -/
def decodeTableWord (nbits w : Nat) : Option Instr :=
  if nbits ≤ 16 then
    match decodeBytes (tableWordBytes nbits w) with
    | .ok (i, _) => some i
    | .error _ => none
  else none

end Sys2Proof
end

