-- ==== Sys2Proof/Machine/State.lean ====
section
/-! DEFINITION. The whole state of one CORE instance (10_state R20: "Nothing else is state"), as plain data, the reasons of
60_exceptions R221, and the state after reset (10_state R36). -/

namespace Sys2Proof.Machine

/-- The six fault causes of 60_exceptions R221. The spec describes what a fault does (R224), so none of them ends a run of
the model: the operation `raise` (Ops.lean) takes the fault, and the step answers the NEXT state, with the fault registers
written. No step answers `Outcome.fault`. Rejecting is the spec's own policy (decisions D1 to D4), and it errs towards the
unprovable: safe. -/
inductive Fault where
  /-- code 1; raised by the fetch (`cycle`) when `pc > 0x0FFE` (40_fetch_dispatch R92). Safe. -/
  | fetchOutOfRange
  /-- code 2; raised by `LD Vx, [I]` and `DRW` when their range ends above 0x0FFF (43_memory_index R156, 44_display R171). Safe. -/
  | dataReadOutOfRange
  /-- code 3; raised by `LD B, Vx` and `LD [I], Vx` when their range ends above 0x0FFF (43_memory_index R153, R155). Safe. -/
  | dataWriteOutOfRange
  /-- code 4; raised by `CALL` with `SP = 16` (41_control_flow R101). Safe. -/
  | stackOverflow
  /-- code 5; raised by `RET` with `SP = 0` (41_control_flow R102). Safe. -/
  | stackUnderflow
  /-- code 6; raised by `SKP` and `SKNP` with `V[X] > 15` (45_input R180, R181). Safe. -/
  | keyIndexOutOfRange
  deriving DecidableEq, Repr

/-- Why a step can have no meaning. -/
inductive Refusal where
  /-- raised by an arm of `exec` whose instruction has no meaning yet: there is none, every arm calls a meaning. Safe. -/
  | notModelled (mnemonic : String)
  deriving DecidableEq, Repr

/-- Memory as the list of the cells that differ from their reset value, by rising address (Ops.lean: `Memory.wf`). -/
abbrev Memory := List Host.Cell

/-- The display buffer: 32 rows, from the top, of 64 pixels, from the left (10_state R28). -/
abbrev Display := Vector (Vector Bool 64) 32

/-- The state tuple of 10_state R20, and the model's own counter of random draws. -/
structure State where
  /-- `V[0..15]`, 8 bits each; `V[15]` is the flag register VF (R21, R22) -/
  v : Vector Byte 16
  /-- the address register `I`, all 16 bits kept (R23) -/
  i : Word
  /-- the program counter (R24) -/
  pc : Word
  /-- the stack pointer: the number of return addresses held, 0 to 16 (R25; assumption 10) -/
  sp : Fin 17
  /-- the call stack `STK[0..15]` (R26) -/
  stk : Vector Word 16
  /-- the 4096 cells of `MEM` (R27; assumption 11) -/
  mem : Memory
  /-- `DISP` (R28) -/
  disp : Display
  /-- `KEY[0..15]`, true while the key is held (R29) -/
  key : Vector Bool 16
  /-- the delay timer `DT` (R30) -/
  dt : Byte
  /-- the sound timer `ST` (R30) -/
  st : Byte
  /-- the blocking flag `BLOCK` (R32) -/
  block : Bool
  /-- the instruction register `IR` (R33) -/
  ir : Word
  /-- `FAULT`: 0 for none, else the code of the cause (R34) -/
  fault : BitVec 3
  /-- `FAULT_PC`: the address of the instruction that faulted (R34) -/
  faultPc : Word
  /-- `FAULT_INFO` (R34) -/
  faultInfo : Word
  /-- THE MODEL'S OWN: how many random bytes have been drawn (42_alu R134; assumption 6) -/
  draws : Nat
  deriving DecidableEq, Repr

/-- The state after reset, the table of 10_state R36: everything 0 but `pc` and the font cells, which an empty list of cells
reads as (Font.lean). `draws` is the model's own: DESIGN CHOICE 0 (assumption 7). -/
def State.reset : State where
  v := Vector.replicate 16 0
  i := 0x0000
  pc := 0x0200
  sp := 0
  stk := Vector.replicate 16 0
  mem := []
  disp := Vector.replicate 32 (Vector.replicate 64 false)
  key := Vector.replicate 16 false
  dt := 0
  st := 0
  block := false
  ir := 0x0000
  fault := 0
  faultPc := 0x0000
  faultInfo := 0x0000
  draws := 0

end Sys2Proof.Machine
end

