-- ==== Sys2Proof/Machine/Font.lean ====
section
/-! DEFINITION. What a memory cell holds at reset: the parameter `FONT` in the font region, 0 elsewhere (10_state R31, R36,
20_memory R51). The 80 bytes are the spec's default table, which it marks as general knowledge (decision D15; assumption 5). -/

namespace Sys2Proof.Machine

/-- Glyphs 0 to 7 of the table of 10_state R31. -/
def fontLow : List Byte :=
  [ 0xF0, 0x90, 0x90, 0x90, 0xF0,
    0x20, 0x60, 0x20, 0x20, 0x70,
    0xF0, 0x10, 0xF0, 0x80, 0xF0,
    0xF0, 0x10, 0xF0, 0x10, 0xF0,
    0x90, 0x90, 0xF0, 0x10, 0x10,
    0xF0, 0x80, 0xF0, 0x10, 0xF0,
    0xF0, 0x80, 0xF0, 0x90, 0xF0,
    0xF0, 0x10, 0x20, 0x40, 0x40 ]

/-- Glyphs 8 to F of the table of 10_state R31. -/
def fontHigh : List Byte :=
  [ 0xF0, 0x90, 0xF0, 0x90, 0xF0,
    0xF0, 0x90, 0xF0, 0x10, 0xF0,
    0xF0, 0x90, 0xF0, 0x90, 0x90,
    0xE0, 0x90, 0xE0, 0x90, 0xE0,
    0xF0, 0x80, 0x80, 0x80, 0xF0,
    0xE0, 0x90, 0x90, 0x90, 0xE0,
    0xF0, 0x80, 0xF0, 0x80, 0xF0,
    0xF0, 0x80, 0xF0, 0x80, 0x80 ]

/-- The parameter `FONT`: 16 glyphs of 5 bytes. -/
def font : List Byte := fontLow ++ fontHigh

/-- The reset value of the cell at address `a`, and so what a cell no entry is listed for reads as. -/
def resetByte (a : Nat) : Byte :=
  if Config.fontBase ≤ a ∧ a < Config.fontEnd then font.getD (a - Config.fontBase) 0 else 0

end Sys2Proof.Machine
end

