-- ==== Sys2Proof/Machine/Ops.lean ====
section
/-! DEFINITION. The named operations over registers, memory, the call stack and the display, the uniform advance of `pc`, and
taking a fault. Every read and write of a meaning goes through these. -/

namespace Sys2Proof.Machine

/-! ### Registers and the program counter -/

/-- `V[x]` (10_state R21). -/
def State.getV (s : State) (x : RegIdx) : Byte := s.v[x.toNat]'x.isLt

/-- `V[x] <- b` (10_state R21). -/
def State.setV (s : State) (x : RegIdx) (b : Byte) : State := { s with v := s.v.set x.toNat b x.isLt }

/-- The uniform advance of 40_fetch_dispatch R93: `pc <- (pc + 2) mod 65536`. -/
def State.advance (s : State) : State := { s with pc := s.pc + 2 }

/-! ### Memory (20_memory) -/

/-- The byte at address `a`. Meanings read only addresses their range check admits (R55). -/
def Memory.read : Memory → Nat → Byte
  | [], a => resetByte a
  | (k, c) :: m, a => if a = k then c else Memory.read m a

/-- The list without its entries for address `a`. -/
def Memory.drop (a : Nat) : Memory → Memory
  | [] => []
  | (k, c) :: m => if k = a then Memory.drop a m else (k, c) :: Memory.drop a m

/-- The list with an entry for address `a` put before the first higher address. -/
def Memory.insert (a : Nat) (b : Byte) : Memory → Memory
  | [] => [(a, b)]
  | (k, c) :: m => if a < k then (a, b) :: (k, c) :: m else (k, c) :: Memory.insert a b m

/-- Puts the byte `b` at address `a`, keeping the list in its canonical form: a cell at its reset value is not listed. -/
def Memory.put (a : Nat) (b : Byte) (m : Memory) : Memory :=
  if b = resetByte a then Memory.drop a m else Memory.insert a b (Memory.drop a m)

/-- `MEM[a] <- b`; no cell exists above 0x0FFF, and a meaning writes only addresses its range check admits (R55, R56). -/
def Memory.write (m : Memory) (a : Nat) (b : Byte) : Memory :=
  if a < Config.memSize then Memory.put a b m else m

/-- `MemRead(a, n)` of 00_scope R11: `n` cells, lowest address first. -/
def Memory.readList (m : Memory) (a : Nat) : Nat → List Byte
  | 0 => []
  | n + 1 => m.read a :: m.readList (a + 1) n

/-- `MemWrite(a, n, bytes)` of 00_scope R11, lowest address first. -/
def Memory.writeList (m : Memory) (a : Nat) : List Byte → Memory
  | [] => m
  | b :: bs => (m.write a b).writeList (a + 1) bs

/-- The canonical form from address `lo` on: addresses rise, exist, and no entry equals its reset value. -/
def Memory.wfFrom : Nat → Memory → Bool
  | _, [] => true
  | lo, (k, c) :: m =>
    decide (lo ≤ k) && decide (k < Config.memSize) && decide (c ≠ resetByte k) && Memory.wfFrom (k + 1) m

/-- The canonical form of memory: equal memories are equal lists. -/
def Memory.wf (m : Memory) : Bool := Memory.wfFrom 0 m

/-! ### The display (10_state R28) -/

/-- The pixel at row `r`, column `c`; unset outside the display, where no meaning reads. -/
def Display.get (d : Display) (r c : Nat) : Bool :=
  if h : r < 32 ∧ c < 64 then (d[r]'h.1)[c]'h.2 else false

/-- `DISP[r][c] <- b`; nothing outside the display, where no meaning writes. -/
def Display.put (d : Display) (r c : Nat) (b : Bool) : Display :=
  if h : r < 32 ∧ c < 64 then d.set r ((d[r]'h.1).set c b h.2) h.1 else d

/-- The display with every pixel 0 (44_display R170). -/
def Display.clear : Display := Vector.replicate 32 (Vector.replicate 64 false)

/-! ### Taking a fault (60_exceptions) -/

/-- The cause codes of R221. -/
def Fault.code : Fault → BitVec 3
  | .fetchOutOfRange => 1
  | .dataReadOutOfRange => 2
  | .dataWriteOutOfRange => 3
  | .stackOverflow => 4
  | .stackUnderflow => 5
  | .keyIndexOutOfRange => 6

/-- Fault entry, R224: `s` is the state this `cycle()` began in, so `s.pc` is the address of the faulting instruction. The three
fault registers are written and nothing else: the advance, the latch of `IR` and every write of the instruction are
discarded. There is no return from a fault (R226): only reset leaves it (`hostReset`, HostInterface.lean). -/
def raise (f : Fault) (info : Word) (s : State) : State :=
  { s with fault := f.code, faultPc := s.pc, faultInfo := info }

end Sys2Proof.Machine
end

