-- ==== Sys2Proof/Machine/Operands.lean ====
section
/-! DEFINITION. The operand forms of the CORE (30_encoding R73, 43_memory_index R154): register fields are read with
`State.getV`; immediates are zero-extended; the one data addressing mode is `I` with an implicit running offset. -/

namespace Sys2Proof.Machine

/-- `zext_16(NNN)` (30_encoding R73). -/
def addrImm (nnn : Addr12) : Word := nnn.setWidth 16

/-- `zext_16` of a byte (30_encoding R73). -/
def byteImm (b : Byte) : Word := b.setWidth 16

/-- 20_memory R55: an access of `n` cells from the 16-bit address `a` is legal when it is empty or its last cell exists, the sum
taken on unbounded numbers. -/
def rangeOk (a : Word) (n : Nat) : Bool := n == 0 || decide (a.toNat + (n - 1) ≤ 0x0FFF)

/-- How many cells a block transfer naming register `x` moves: `V[0]` to `V[x]` inclusive (43_memory_index R155). -/
def blockLen (x : RegIdx) : Nat := x.toNat + 1

/-- The bytes `V[0], .., V[x]` (43_memory_index R155). -/
def State.block0To (s : State) (x : RegIdx) : List Byte := s.v.toList.take (blockLen x)

/-- The register file with `V[k] <- MEM[a + k]` for every `k` from 0 to `x`, the others as they are (43_memory_index R156). -/
def loadBlock (m : Memory) (a : Nat) (x : RegIdx) (v : Vector Byte 16) : Vector Byte 16 :=
  Vector.ofFn fun k => if k.val ≤ x.toNat then m.read (a + k.val) else v.get k

/-- `FONT_BASE + GLYPH_BYTES * V[X]`, the whole 8-bit value (43_memory_index R152). -/
def glyphAddr (b : Byte) : Word := 0x0050#16 + 5#16 * byteImm b

/-- Hundreds, tens, ones (43_memory_index R153). -/
def decimalDigits (b : Byte) : List Byte :=
  [BitVec.ofNat 8 (b.toNat / 100), BitVec.ofNat 8 (b.toNat / 10 % 10), BitVec.ofNat 8 (b.toNat % 10)]

/-- `KEY[k]` where a register names the key; none above 15, where no key is (45_input R180). -/
def State.keyNamed (s : State) (k : Byte) : Option Bool :=
  if h : k.toNat < 16 then some (s.key[k.toNat]'h) else none

end Sys2Proof.Machine
end

