-- ==== Sys2Proof/Machine/Flags.lean ====
section
/-! DEFINITION. The flag computations (10_state R22: a flag output is the byte 0x00 or 0x01 in VF) and the shared write-back of
42_alu R122. The collision flag is computed with the sprite (Display.lean). -/

namespace Sys2Proof.Machine

/-- The byte an instruction writes into VF for a flag (10_state R22). -/
def flagByte (f : Bool) : Byte := if f then 1 else 0

/-- Carry out of a sum: the 9-bit sum exceeds 255 (42_alu R127). -/
def carryOut (a b : Byte) : Bool := decide (255 < a.toNat + b.toNat)

/-- No borrow: minuend at least subtrahend (42_alu R128, R130). -/
def noBorrow (minuend subtrahend : Byte) : Bool := decide (subtrahend.toNat ≤ minuend.toNat)

/-- The bit a right shift puts out (42_alu R129). -/
def shiftedOutRight (b : Byte) : Bool := b.getLsbD 0

/-- The bit a left shift puts out (42_alu R131). -/
def shiftedOutLeft (b : Byte) : Bool := b.getLsbD 7

/-- The unbounded sum `I + V[X]` leaves the 12-bit range (43_memory_index R151). -/
def leavesRange (a : Word) (b : Byte) : Bool := decide (0x0FFF < a.toNat + b.toNat)

/-- `VF <- f`. -/
def State.setFlag (s : State) (f : Bool) : State := s.setV Config.flagReg (flagByte f)

/-- The write-back of the five flag-producing ALU instructions: the flag first, the result last, so that with `X = 15` the
result stands (42_alu R122). -/
def State.writeFlagResult (s : State) (x : RegIdx) (f : Bool) (r : Byte) : State := (s.setFlag f).setV x r

end Sys2Proof.Machine
end

