-- ==== Sys2Proof/Machine/Alu.lean ====
section
/-! DEFINITION. The arithmetic and logic instructions (42_alu). Operands are read from the state the `cycle()` began in, before
any write (40_fetch_dispatch R95). None of them faults (60_exceptions R222). -/

namespace Sys2Proof.Machine

/-- `LD Vx, NN` (42_alu R120). -/
def execLdVxNN (x : RegIdx) (nn : Byte) (s : State) : Host.Outcome State Fault Refusal :=
  .next (s.advance.setV x nn)

/-- `ADD Vx, NN` (42_alu R121): wraps modulo 256, no flag. -/
def execAddVxNN (x : RegIdx) (nn : Byte) (s : State) : Host.Outcome State Fault Refusal :=
  .next (s.advance.setV x (s.getV x + nn))

/-- `LD Vx, Vy` (42_alu R123). -/
def execLdVxVy (x y : RegIdx) (s : State) : Host.Outcome State Fault Refusal :=
  .next (s.advance.setV x (s.getV y))

/-- `OR Vx, Vy` (42_alu R124): no flag. -/
def execOrVxVy (x y : RegIdx) (s : State) : Host.Outcome State Fault Refusal :=
  .next (s.advance.setV x (s.getV x ||| s.getV y))

/-- `AND Vx, Vy` (42_alu R125): no flag. -/
def execAndVxVy (x y : RegIdx) (s : State) : Host.Outcome State Fault Refusal :=
  .next (s.advance.setV x (s.getV x &&& s.getV y))

/-- `XOR Vx, Vy` (42_alu R126): no flag. -/
def execXorVxVy (x y : RegIdx) (s : State) : Host.Outcome State Fault Refusal :=
  .next (s.advance.setV x (s.getV x ^^^ s.getV y))

/-- `ADD Vx, Vy` (42_alu R127): carry out into VF. -/
def execAddVxVy (x y : RegIdx) (s : State) : Host.Outcome State Fault Refusal :=
  .next (s.advance.writeFlagResult x (carryOut (s.getV x) (s.getV y)) (s.getV x + s.getV y))

/-- `SUB Vx, Vy` (42_alu R128): minuend `V[X]`. -/
def execSubVxVy (x y : RegIdx) (s : State) : Host.Outcome State Fault Refusal :=
  .next (s.advance.writeFlagResult x (noBorrow (s.getV x) (s.getV y)) (s.getV x - s.getV y))

/-- `SHR Vx, Vy` (42_alu R129): the source is `V[Y]`. -/
def execShrVxVy (x y : RegIdx) (s : State) : Host.Outcome State Fault Refusal :=
  .next (s.advance.writeFlagResult x (shiftedOutRight (s.getV y)) (s.getV y >>> 1))

/-- `SUBN Vx, Vy` (42_alu R130): minuend `V[Y]`. -/
def execSubnVxVy (x y : RegIdx) (s : State) : Host.Outcome State Fault Refusal :=
  .next (s.advance.writeFlagResult x (noBorrow (s.getV y) (s.getV x)) (s.getV y - s.getV x))

/-- `SHL Vx, Vy` (42_alu R131): the source is `V[Y]`. -/
def execShlVxVy (x y : RegIdx) (s : State) : Host.Outcome State Fault Refusal :=
  .next (s.advance.writeFlagResult x (shiftedOutLeft (s.getV y)) (s.getV y <<< 1))

/-- `RngByte()` (42_alu R134): the free byte of this draw, and the state in which it is drawn. -/
def State.drawByte (s : State) : Byte × State := (Config.rngByte s.draws, { s with draws := s.draws + 1 })

/-- `RND Vx, NN` (42_alu R134). -/
def execRnd (x : RegIdx) (nn : Byte) (s : State) : Host.Outcome State Fault Refusal :=
  .next (s.advance.drawByte.2.setV x (s.advance.drawByte.1 &&& nn))

end Sys2Proof.Machine
end

