-- ==== Sys2Proof/Machine/ControlFlow.lean ====
section
/-! DEFINITION. The control-flow instructions (41_control_flow) and the no-op (40_fetch_dispatch R96). A meaning is given the
state its `cycle()` began in, `s.pc` the address `a` of the instruction; `s.advance` is the state its rule runs in, where `pc` is
`a + 2`. A fault is taken on `s` itself (60_exceptions R224; assumption 9). -/

namespace Sys2Proof.Machine

/-- A skip: `pc <- (pc + 2) mod 65536` on the post-fetch `pc` when the predicate holds (41_control_flow R104, R108). -/
def State.skipIf (s : State) (c : Bool) : State := if c then { s with pc := s.pc + 2 } else s

/-- `STK[SP] <- pc; SP <- SP + 1`, none where the stack is full (41_control_flow R101). -/
def State.push (s : State) (a : Word) : Option State :=
  if h : s.sp.val < 16 then
    some { s with stk := s.stk.set s.sp.val a h, sp := ⟨s.sp.val + 1, by omega⟩ }
  else none

/-- `SP <- SP - 1`, with the entry the decremented pointer names, none where the stack is empty; the entry is not erased
(41_control_flow R102, 10_state R26). -/
def State.pop (s : State) : Option (Word × State) :=
  if h : s.sp.val = 0 then none
  else some (s.stk[s.sp.val - 1]'(by omega), { s with sp := ⟨s.sp.val - 1, by omega⟩ })

/-- `SP` as `FAULT_INFO` receives it (60_exceptions R221). -/
def spInfo (s : State) : Word := BitVec.ofNat 16 s.sp.val

/-- `JP NNN` (41_control_flow R100). -/
def execJp (nnn : Addr12) (s : State) : Host.Outcome State Fault Refusal :=
  .next { s.advance with pc := addrImm nnn }

/-- `CALL NNN` (41_control_flow R101): pushes the post-fetch `pc`. -/
def execCall (nnn : Addr12) (s : State) : Host.Outcome State Fault Refusal :=
  match s.advance.push s.advance.pc with
  | some t => .next { t with pc := addrImm nnn }
  | none => .next (raise .stackOverflow (spInfo s) s)

/-- `RET` (41_control_flow R102). -/
def execRet (s : State) : Host.Outcome State Fault Refusal :=
  match s.advance.pop with
  | some (a, t) => .next { t with pc := a }
  | none => .next (raise .stackUnderflow (spInfo s) s)

/-- `JP V0, NNN` (41_control_flow R103): the sum is not reduced to 12 bits. -/
def execJpV0 (nnn : Addr12) (s : State) : Host.Outcome State Fault Refusal :=
  .next { s.advance with pc := addrImm nnn + byteImm (s.getV 0) }

/-- `SE Vx, NN` (41_control_flow R104). -/
def execSeVxNN (x : RegIdx) (nn : Byte) (s : State) : Host.Outcome State Fault Refusal :=
  .next (s.advance.skipIf (s.getV x == nn))

/-- `SNE Vx, NN` (41_control_flow R105). -/
def execSneVxNN (x : RegIdx) (nn : Byte) (s : State) : Host.Outcome State Fault Refusal :=
  .next (s.advance.skipIf (s.getV x != nn))

/-- `SE Vx, Vy` (41_control_flow R106). -/
def execSeVxVy (x y : RegIdx) (s : State) : Host.Outcome State Fault Refusal :=
  .next (s.advance.skipIf (s.getV x == s.getV y))

/-- `SNE Vx, Vy` (41_control_flow R107). -/
def execSneVxVy (x y : RegIdx) (s : State) : Host.Outcome State Fault Refusal :=
  .next (s.advance.skipIf (s.getV x != s.getV y))

/-- `NOP` (40_fetch_dispatch R96): nothing after the fetch and advance. -/
def execNop (s : State) : Host.Outcome State Fault Refusal := .next s.advance

end Sys2Proof.Machine
end

