-- ==== Sys2Proof/Machine/Display.lean ====
section
/-! DEFINITION. Clear-screen and the sprite XOR-blender with its collision detector (44_display). The sprite's rows are composed
as the pseudocode of R171 composes them, one pixel after another; the rows are read from memory first, which a draw does not
change. -/

namespace Sys2Proof.Machine

/-- The body of R171's inner loop: bit `k` of a sprite row (`k = 0` the most significant) at row `r`, the sprite's first column
being `x0`. A column right of the display is skipped. The pair is the display and the collision so far. -/
def blendBit (r x0 : Nat) (row : Byte) (p : Display × Bool) (k : Nat) : Display × Bool :=
  if 63 < x0 + k then p
  else
    (p.1.put r (x0 + k) (p.1.get r (x0 + k) ^^ row.getLsbD (7 - k)),
     p.2 || (p.1.get r (x0 + k) && row.getLsbD (7 - k)))

/-- R171's inner loop over one sprite row; a row below the display is skipped. -/
def blendRow (r x0 : Nat) (row : Byte) (p : Display × Bool) : Display × Bool :=
  if 31 < r then p else (List.range 8).foldl (blendBit r x0 row) p

/-- R171's outer loop: the sprite rows from display row `r` down. -/
def blendRows (r x0 : Nat) : List Byte → Display × Bool → Display × Bool
  | [], p => p
  | row :: rows, p => blendRows (r + 1) x0 rows (blendRow r x0 row p)

/-- The origin column, `V[X] mod 64` (44_display R171, R172). -/
def originCol (b : Byte) : Nat := b.toNat % Config.dispCols

/-- The origin row, `V[Y] mod 32` (44_display R171, R172). -/
def originRow (b : Byte) : Nat := b.toNat % Config.dispRows

/-- `CLS` (44_display R170): VF is unaffected. -/
def execCls (s : State) : Host.Outcome State Fault Refusal :=
  .next { s.advance with disp := Display.clear }

/-- The display and the collision after composing, from `VF = 0`, the `n` sprite rows at `I` (44_display R171). -/
def drawn (x y : RegIdx) (n : Nibble) (s : State) : Display × Bool :=
  blendRows (originRow (s.getV y)) (originCol (s.getV x)) (s.mem.readList s.i.toNat n.toNat) (s.disp, false)

/-- `DRW Vx, Vy, N` (44_display R171): all `N` rows are range-checked, clipped or not. -/
def execDrw (x y : RegIdx) (n : Nibble) (s : State) : Host.Outcome State Fault Refusal :=
  if rangeOk s.i n.toNat then
    .next { s.advance.setFlag (drawn x y n s).2 with disp := (drawn x y n s).1 }
  else .next (raise .dataReadOutOfRange s.i s)

end Sys2Proof.Machine
end

