-- ==== Sys2Proof/Machine/Input.lean ====
section
/-! DEFINITION. The key skips and the blocking-input state machine (45_input). -/

namespace Sys2Proof.Machine

/-- The smallest index, from `k` on, of a held key (45_input R185). -/
def lowestHeldFrom (k : Nat) : List Bool → Option Nat
  | [] => none
  | b :: bs => if b then some k else lowestHeldFrom (k + 1) bs

/-- `min (k | KEY[k] = 1)`, none where no key is held: a fixed priority encoder over `KEY[0..15]` (45_input R185). -/
def lowestHeld (key : Vector Bool 16) : Option Nat := lowestHeldFrom 0 key.toList

/-- `wait_key(X)` of 45_input R182. -/
def State.waitKey (s : State) (x : RegIdx) : State :=
  match lowestHeld s.key with
  | some k => { s with block := false }.setV x (BitVec.ofNat 8 k)
  | none => { s with block := true }

/-- `poll_wait_key()` of 45_input R183: the pending instruction's destination is `IR[11:8]`; nothing is fetched. -/
def pollWaitKey (s : State) : State := s.waitKey (xOf s.ir)

/-- `SKP Vx` (45_input R180). -/
def execSkp (x : RegIdx) (s : State) : Host.Outcome State Fault Refusal :=
  match s.keyNamed (s.getV x) with
  | some held => .next (s.advance.skipIf held)
  | none => .next (raise .keyIndexOutOfRange (byteImm (s.getV x)) s)

/-- `SKNP Vx` (45_input R181). -/
def execSknp (x : RegIdx) (s : State) : Host.Outcome State Fault Refusal :=
  match s.keyNamed (s.getV x) with
  | some held => .next (s.advance.skipIf !held)
  | none => .next (raise .keyIndexOutOfRange (byteImm (s.getV x)) s)

/-- `LD Vx, K`, the `cycle()` that fetches it (45_input R182). -/
def execLdVxK (x : RegIdx) (s : State) : Host.Outcome State Fault Refusal := .next (s.advance.waitKey x)

end Sys2Proof.Machine
end

