-- ==== Sys2Proof/Machine/MemoryIndex.lean ====
section
/-! DEFINITION. The memory and address-register instructions (43_memory_index). The range of a store or load is checked whole,
before the first cell is touched (20_memory R55). -/

namespace Sys2Proof.Machine

/-- `LD I, NNN` (43_memory_index R150). -/
def execLdINNN (nnn : Addr12) (s : State) : Host.Outcome State Fault Refusal :=
  .next { s.advance with i := addrImm nnn }

/-- `ADD I, Vx` (43_memory_index R151): VF is always written; `I` keeps 16 bits. -/
def execAddIVx (x : RegIdx) (s : State) : Host.Outcome State Fault Refusal :=
  .next { s.advance.setFlag (leavesRange s.i (s.getV x)) with i := s.i + byteImm (s.getV x) }

/-- `LD F, Vx` (43_memory_index R152): no masking. -/
def execLdFVx (x : RegIdx) (s : State) : Host.Outcome State Fault Refusal :=
  .next { s.advance with i := glyphAddr (s.getV x) }

/-- `LD B, Vx` (43_memory_index R153): `I` is unchanged. -/
def execLdBVx (x : RegIdx) (s : State) : Host.Outcome State Fault Refusal :=
  if rangeOk s.i 3 then
    .next { s.advance with mem := s.mem.writeList s.i.toNat (decimalDigits (s.getV x)) }
  else .next (raise .dataWriteOutOfRange s.i s)

/-- `LD [I], Vx` (43_memory_index R155). -/
def execLdMemVx (x : RegIdx) (s : State) : Host.Outcome State Fault Refusal :=
  if rangeOk s.i (blockLen x) then
    .next { s.advance with
      mem := s.mem.writeList s.i.toNat (s.block0To x)
      i := s.i + BitVec.ofNat 16 (blockLen x) }
  else .next (raise .dataWriteOutOfRange s.i s)

/-- `LD Vx, [I]` (43_memory_index R156). -/
def execLdVxMem (x : RegIdx) (s : State) : Host.Outcome State Fault Refusal :=
  if rangeOk s.i (blockLen x) then
    .next { s.advance with
      v := loadBlock s.mem s.i.toNat x s.v
      i := s.i + BitVec.ofNat 16 (blockLen x) }
  else .next (raise .dataReadOutOfRange s.i s)

end Sys2Proof.Machine
end

