-- ==== Sys2Proof/Machine/Timers.lean ====
section
/-! DEFINITION. The timer instructions (46_timers R190 to R193). The tick that decrements the timers is a transaction of the
host's (HostInterface.lean). -/

namespace Sys2Proof.Machine

/-- `LD Vx, DT` (46_timers R190). -/
def execLdVxDT (x : RegIdx) (s : State) : Host.Outcome State Fault Refusal := .next (s.advance.setV x s.dt)

/-- `LD Vx, ST` (46_timers R191): no word selects it while `LDST_SUBOP` is unset. -/
def execLdVxST (x : RegIdx) (s : State) : Host.Outcome State Fault Refusal := .next (s.advance.setV x s.st)

/-- `LD DT, Vx` (46_timers R192). -/
def execLdDTVx (x : RegIdx) (s : State) : Host.Outcome State Fault Refusal := .next { s.advance with dt := s.getV x }

/-- `LD ST, Vx` (46_timers R193). -/
def execLdSTVx (x : RegIdx) (s : State) : Host.Outcome State Fault Refusal := .next { s.advance with st := s.getV x }

end Sys2Proof.Machine
end

