-- ==== Sys2Proof/Machine/Cycle.lean ====
section
/-! DEFINITION. `cycle()` (40_fetch_dispatch): fetching the word, latching it into `IR` once the instruction has not faulted, and
the four cases that put them together. `step` (Step.lean) only calls it. -/

namespace Sys2Proof.Machine

/-- The two cells at `pc`, the lower address high (20_memory R52, 40_fetch_dispatch R91); none where they do not both exist
(R92). -/
def fetch (s : State) : Option Word :=
  if s.pc.toNat ≤ 0x0FFE then some (s.mem.read s.pc.toNat ++ s.mem.read (s.pc.toNat + 1)) else none

/-- `IR <- instr` (40_fetch_dispatch R90, R91). An instruction that faulted leaves `IR` as it was (60_exceptions R224). `t` is the
state the instruction answered; it was begun with `FAULT = 0`, so `FAULT` tells whether it faulted. -/
def State.latchIr (w : Word) (t : State) : State := if t.fault = 0 then { t with ir := w } else t

/-- The latch on what an instruction answers. -/
def retire (w : Word) : Host.Outcome State Fault Refusal → Host.Outcome State Fault Refusal
  | .next t => .next (t.latchIr w)
  | .fault r => .fault r
  | .refused r => .refused r

/-- `cycle()`, the four cases of 40_fetch_dispatch R90 in the order it tests them: faulted, blocked, not fetchable, executed. -/
def cycle (s : State) : Host.Outcome State Fault Refusal :=
  if s.fault ≠ 0 then .next s
  else if s.block then .next (pollWaitKey s)
  else
    match fetch s with
    | none => .next (raise .fetchOutOfRange s.pc s)
    | some w => retire w (exec (decode w) s)

end Sys2Proof.Machine
end

