-- ==== Sys2Proof/Machine/Step.lean ====
section
/-! DEFINITION. One step of the machine is one call of `cycle()` (40_fetch_dispatch R90), and the placing of an instruction where
the next step fetches it. -/

namespace Sys2Proof.Machine

/-- One step is one `cycle()` (40_fetch_dispatch R90; assumption 1). -/
def step (s : State) : Host.Outcome State Fault Refusal := cycle s

/-- `s` with the instruction whose `nbits` table bits are `w` stored at `pc`, and able to fetch: neither faulted nor waiting for
a key (R90). It stands for the host's program load (assumptions 2 and 16). -/
def State.withFetchWord (s : State) (nbits w : Nat) : State :=
  { s with mem := s.mem.writeList s.pc.toNat (tableWordBytes nbits w), fault := 0, block := false }

end Sys2Proof.Machine
end

