-- ==== Sys2Proof/Machine/HostInterface.lean ====
section
/-! DEFINITION. The transactions through which the host reaches the CORE (47_host_interface R200), each one atomic transition
(00_scope R9, R210), and what a sequence of them does. `cycle()` is `step`. The host may put them in any order; the one thing it
may do only before the first `cycle()`, and only once, is a program load (R203, R211, 93_implementation_defined A14; assumptions 12
and 18). -/

namespace Sys2Proof.Machine

/-- `tick()` (46_timers R195): tests neither BLOCK nor FAULT (R196). -/
def tick (s : State) : State :=
  { s with
    dt := if s.dt ≠ 0 then s.dt - 1 else s.dt
    st := if s.st ≠ 0 then s.st - 1 else s.st }

/-- `setKey(key, pressed)` (47_host_interface R204). -/
def setKey (k : Fin 16) (pressed : Bool) (s : State) : State := { s with key := s.key.set k.val pressed k.isLt }

/-- `load(b)` (47_host_interface R203): none is `FAILURE`, and then nothing is written. -/
def loadProgram (b : List Byte) (s : State) : Option State :=
  if Config.memSize - Config.progBase < b.length then none
  else some { s with mem := s.mem.writeList Config.progBase b }

/-- `pixelAt(row, col)` (47_host_interface R205). -/
def pixelAt (s : State) (row : Fin 32) (col : Fin 64) : Bool := s.disp.get row.val col.val

/-- `isSoundActive()` (46_timers R194, 47_host_interface R206). -/
def isSoundActive (s : State) : Bool := s.st != 0

/-- The fault status outputs (47_host_interface R209). -/
def faultStatus (s : State) : BitVec 3 × Word × Word := (s.fault, s.faultPc, s.faultInfo)

/-- `reset` (70_reset_and_hazards R250). The draws already made stay counted, so that nothing can be concluded of the bytes drawn
after a reset from those drawn before it (assumption 7). -/
def hostReset (s : State) : State := { State.reset with draws := s.draws }

/-- One transaction of 47_host_interface R200. The random byte is no transaction of its own: `cycle()` consumes it (R208). -/
inductive Transaction where
  | reset
  | load (b : List Byte)
  | cycle
  | tick
  | setKey (k : Fin 16) (pressed : Bool)
  | pixelAt (row : Fin 32) (col : Fin 64)
  | isSoundActive
  | faultStatus
  deriving DecidableEq, Repr

/-- What a transaction returns to the host. -/
inductive Reply where
  /-- nothing is returned -/
  | done
  /-- a load that was done -/
  | success
  /-- a load of more than 3584 bytes (R203) -/
  | failure
  /-- a load after the first `cycle()`, or after another load was done, neither of which the spec defines: it is refused, that is, it
  reports failure and changes nothing (R203, 93_implementation_defined A14; assumptions 12 and 18) -/
  | notAccepted
  /-- the answer of a query -/
  | bit (b : Bool)
  /-- the fault registers -/
  | status (fault : BitVec 3) (faultPc faultInfo : Word)
  /-- a `cycle()` without a next state; no step is without one -/
  | stopped
  deriving DecidableEq, Repr

/-- A CORE in the host's hands: its state, and whether the host, since the last reset, has called `cycle()` and has done a load.
The two flags are no state of the CORE. -/
structure Session where
  core : State
  cycled : Bool
  loaded : Bool
  deriving DecidableEq, Repr

/-- The session right after reset. -/
def Session.start : Session := { core := State.reset, cycled := false, loaded := false }

/-- What one transaction does and returns. Two loads are the model's own choice, because the spec leaves both unsaid (R203,
93_implementation_defined A14, 91_not_in_source N25): DESIGN CHOICE, a load after the first `cycle()` is not accepted and changes
nothing (assumption 12, safe); DESIGN CHOICE, a load after another load was done is not accepted either, while one after a load
that failed is (assumption 18, safe). -/
def transact (σ : Session) : Transaction → Session × Reply
  | .reset => ({ core := hostReset σ.core, cycled := false, loaded := false }, .done)
  | .load b =>
    if σ.cycled || σ.loaded then (σ, .notAccepted)
    else
      match loadProgram b σ.core with
      | some s => ({ σ with core := s, loaded := true }, .success)
      | none => (σ, .failure)
  | .cycle =>
    match step σ.core with
    | .next s => ({ σ with core := s, cycled := true }, .done)
    | .fault _ => (σ, .stopped)
    | .refused _ => (σ, .stopped)
  | .tick => ({ σ with core := tick σ.core }, .done)
  | .setKey k p => ({ σ with core := setKey k p σ.core }, .done)
  | .pixelAt r c => (σ, .bit (pixelAt σ.core r c))
  | .isSoundActive => (σ, .bit (isSoundActive σ.core))
  | .faultStatus => (σ, .status (faultStatus σ.core).1 (faultStatus σ.core).2.1 (faultStatus σ.core).2.2)

/-- The session after a sequence of transactions, in the order the host made them (47_host_interface R210). -/
def Session.run (σ : Session) : List Transaction → Session
  | [] => σ
  | a :: as => Session.run (transact σ a).1 as

end Sys2Proof.Machine
end

