-- ==== Sys2Proof/Safety.lean ====
section
/-! DEFINITION. What counts as a safe run, the quiescent conditions of 47_host_interface R212, the invariant of the machine, and
the terms the statements are written in: what is kept between two states, the fault table, the sprite as a bitmap. -/

namespace Sys2Proof

/-! ### Classes of instructions -/

/-- The instructions that end a straight line: jumps, call, return (41_control_flow section 1). -/
def Instr.isJump : Instr → Bool
  | .jp _ | .call _ | .ret | .jpV0 _ => true
  | .cls | .seVxNN _ _ | .sneVxNN _ _ | .seVxVy _ _ | .ldVxNN _ _ | .addVxNN _ _ | .ldVxVy _ _ | .orVxVy _ _
  | .andVxVy _ _ | .xorVxVy _ _ | .addVxVy _ _ | .subVxVy _ _ | .shrVxVy _ _ | .subnVxVy _ _ | .shlVxVy _ _
  | .sneVxVy _ _ | .ldINNN _ | .rnd _ _ | .drw _ _ _ | .skp _ | .sknp _ | .ldVxDT _ | .ldVxK _ | .ldDTVx _
  | .ldSTVx _ | .addIVx _ | .ldFVx _ | .ldBVx _ | .ldMemVx _ | .ldVxMem _ | .ldVxST _ | .nop => false

/-- The six skips (41_control_flow section 2, 45_input section 1). -/
def Instr.isSkip : Instr → Bool
  | .seVxNN _ _ | .sneVxNN _ _ | .seVxVy _ _ | .sneVxVy _ _ | .skp _ | .sknp _ => true
  | .cls | .ret | .jp _ | .call _ | .ldVxNN _ _ | .addVxNN _ _ | .ldVxVy _ _ | .orVxVy _ _
  | .andVxVy _ _ | .xorVxVy _ _ | .addVxVy _ _ | .subVxVy _ _ | .shrVxVy _ _ | .subnVxVy _ _ | .shlVxVy _ _
  | .ldINNN _ | .jpV0 _ | .rnd _ _ | .drw _ _ _ | .ldVxDT _ | .ldVxK _ | .ldDTVx _
  | .ldSTVx _ | .addIVx _ | .ldFVx _ | .ldBVx _ | .ldMemVx _ | .ldVxMem _ | .ldVxST _ | .nop => false

/-- The instructions that read or write a timer (46_timers). -/
def Instr.isTimer : Instr → Bool
  | .ldVxDT _ | .ldVxST _ | .ldDTVx _ | .ldSTVx _ => true
  | .cls | .ret | .jp _ | .call _ | .seVxNN _ _ | .sneVxNN _ _ | .seVxVy _ _ | .ldVxNN _ _ | .addVxNN _ _
  | .ldVxVy _ _ | .orVxVy _ _ | .andVxVy _ _ | .xorVxVy _ _ | .addVxVy _ _ | .subVxVy _ _ | .shrVxVy _ _
  | .subnVxVy _ _ | .shlVxVy _ _ | .sneVxVy _ _ | .ldINNN _ | .jpV0 _ | .rnd _ _ | .drw _ _ _ | .skp _ | .sknp _
  | .ldVxK _ | .addIVx _ | .ldFVx _ | .ldBVx _ | .ldMemVx _ | .ldVxMem _ | .nop => false

/-- The seven instructions that write VF as a flag output (10_state R22). -/
def Instr.writesFlag : Instr → Bool
  | .addVxVy _ _ | .subVxVy _ _ | .subnVxVy _ _ | .shrVxVy _ _ | .shlVxVy _ _ | .addIVx _ | .drw _ _ _ => true
  | .cls | .ret | .jp _ | .call _ | .seVxNN _ _ | .sneVxNN _ _ | .seVxVy _ _ | .ldVxNN _ _ | .addVxNN _ _
  | .ldVxVy _ _ | .orVxVy _ _ | .andVxVy _ _ | .xorVxVy _ _ | .sneVxVy _ _ | .ldINNN _ | .jpV0 _ | .rnd _ _
  | .skp _ | .sknp _ | .ldVxDT _ | .ldVxK _ | .ldDTVx _ | .ldSTVx _ | .ldFVx _ | .ldBVx _ | .ldMemVx _ | .ldVxMem _
  | .ldVxST _ | .nop => false

/-- The registers an instruction names as its destination: `V[X]`, for the block load `V[0]` to `V[X]` (42_alu, 43_memory_index
R156, 45_input R182, 46_timers R190, R191). -/
def Instr.isDest (i : Instr) (r : RegIdx) : Prop :=
  match i with
  | .ldVxNN x _ | .addVxNN x _ | .ldVxVy x _ | .orVxVy x _ | .andVxVy x _ | .xorVxVy x _ | .addVxVy x _ | .subVxVy x _
  | .shrVxVy x _ | .subnVxVy x _ | .shlVxVy x _ | .rnd x _ | .ldVxDT x | .ldVxK x | .ldVxST x => r = x
  | .ldVxMem x => r.toNat ≤ x.toNat
  | .cls | .ret | .jp _ | .call _ | .seVxNN _ _ | .sneVxNN _ _ | .seVxVy _ _ | .sneVxVy _ _ | .ldINNN _ | .jpV0 _
  | .drw _ _ _ | .skp _ | .sknp _ | .ldDTVx _ | .ldSTVx _ | .addIVx _ | .ldFVx _ | .ldBVx _ | .ldMemVx _ | .nop => False

end Sys2Proof

namespace Sys2Proof.Machine

/-! ### Safe runs and quiescent states -/

/-- Faulted (47_host_interface R212(a)): never a good end. -/
abbrev State.Faulted (s : State) : Prop := s.fault ≠ 0

/-- Safe: no fault recorded. -/
abbrev State.Safe (s : State) : Prop := s.fault = 0

/-- A sequence of host transactions is safe from `σ`: none of its prefixes ends faulted. -/
def Session.SafeRun (σ : Session) (as : List Transaction) : Prop := ∀ n, (σ.run (as.take n)).core.Safe

/-- Waiting (47_host_interface R212(c)): blocked, and no key is held. -/
abbrev State.Waiting (s : State) : Prop := s.block = true ∧ ∀ k : Fin 16, s.key.get k = false

/-- Able to fetch: neither faulted nor blocked, and both cells at `pc` exist (40_fetch_dispatch R90, R92). -/
abbrev State.Ready (s : State) : Prop := s.fault = 0 ∧ s.block = false ∧ s.pc.toNat ≤ 0x0FFE

/-- The word at `pc`, high byte first (40_fetch_dispatch R91). -/
def State.wordAtPc (s : State) : Word := s.mem.read s.pc.toNat ++ s.mem.read (s.pc.toNat + 1)

/-- Self-loop (47_host_interface R212(b)): the instruction at `pc` is `JP pc`. -/
abbrev State.SelfLoop (s : State) : Prop := s.Ready ∧ s.wordAtPc = 0x1000#16 + s.pc

/-! ### The invariant -/

/-- What holds of the state between any two transactions: memory is in canonical form; `pc` is at most 0x10FE and every stack
entry at most 0x1000 (41_control_flow R101, R103, R108); a blocked CORE is not faulted and its `IR` is a wait-for-key word
(10_state R33, 45_input R184); a faulted CORE still has `pc` at the faulting instruction and one of the six codes; without a
fault the other two fault registers are 0 (10_state R34, 60_exceptions R224). -/
abbrev State.Inv (s : State) : Prop :=
  s.mem.wf = true ∧
  s.pc.toNat ≤ 0x10FE ∧
  (∀ k : Fin 16, (s.stk.get k).toNat ≤ 0x1000) ∧
  (s.block = true → s.fault = 0 ∧ decode s.ir = .ldVxK (xOf s.ir)) ∧
  (s.fault ≠ 0 → s.fault.toNat ≤ 6 ∧ s.faultPc = s.pc) ∧
  (s.fault = 0 → s.faultPc = 0 ∧ s.faultInfo = 0)

/-! ### What is kept -/

/-- Every general register outside `q` is as before. -/
def RegsKeptBut (q : RegIdx → Prop) (s t : State) : Prop := ∀ r, ¬ q r → t.getV r = s.getV r

/-- Every general register is as before. -/
def RegsKept (s t : State) : Prop := ∀ r, t.getV r = s.getV r

/-- Every byte of memory reads as before. -/
def MemKept (s t : State) : Prop := ∀ a, t.mem.read a = s.mem.read a

/-- Every byte of memory outside the `n` cells from `lo` reads as before. -/
def MemKeptBut (lo n : Nat) (s t : State) : Prop := ∀ a, ¬ (lo ≤ a ∧ a < lo + n) → t.mem.read a = s.mem.read a

/-- The call stack and its pointer are as before. -/
def StackKept (s t : State) : Prop := t.sp = s.sp ∧ t.stk = s.stk

/-- Every pixel is as before. -/
def ScreenKept (s t : State) : Prop := ∀ r c, pixelAt t r c = pixelAt s r c

/-- Every key flag is as before. -/
def KeysKept (s t : State) : Prop := t.key = s.key

/-- Both timers are as before. -/
def TimersKept (s t : State) : Prop := t.dt = s.dt ∧ t.st = s.st

/-- The three fault registers are as before. -/
def FaultKept (s t : State) : Prop := t.fault = s.fault ∧ t.faultPc = s.faultPc ∧ t.faultInfo = s.faultInfo

/-- The blocking flag, `IR` and the fault registers are as before. -/
def ControlKept (s t : State) : Prop := t.block = s.block ∧ t.ir = s.ir ∧ FaultKept s t

/-- Everything but the general registers and `pc` is as before. -/
def AllButRegsKept (s t : State) : Prop :=
  t.i = s.i ∧ StackKept s t ∧ MemKept s t ∧ ScreenKept s t ∧ KeysKept s t ∧ TimersKept s t ∧ ControlKept s t

/-! ### The fault table (60_exceptions R221) -/

/-- The code and the information an instruction's fault records, none where the instruction does not fault: the table and the
exact conditions of R221, all sums unbounded. -/
def expectedFault (i : Instr) (s : State) : Option (BitVec 3 × Word) :=
  match i with
  | .ldVxMem x => if 0x0FFF < s.i.toNat + x.toNat then some (2, s.i) else none
  | .drw _ _ n => if 0 < n.toNat ∧ 0x0FFF < s.i.toNat + n.toNat - 1 then some (2, s.i) else none
  | .ldBVx _ => if 0x0FFF < s.i.toNat + 2 then some (3, s.i) else none
  | .ldMemVx x => if 0x0FFF < s.i.toNat + x.toNat then some (3, s.i) else none
  | .call _ => if s.sp = 16 then some (4, 16) else none
  | .ret => if s.sp = 0 then some (5, 0) else none
  | .skp x => if 15 < (s.getV x).toNat then some (6, (s.getV x).setWidth 16) else none
  | .sknp x => if 15 < (s.getV x).toNat then some (6, (s.getV x).setWidth 16) else none
  | .cls | .jp _ | .seVxNN _ _ | .sneVxNN _ _ | .seVxVy _ _ | .ldVxNN _ _ | .addVxNN _ _ | .ldVxVy _ _ | .orVxVy _ _
  | .andVxVy _ _ | .xorVxVy _ _ | .addVxVy _ _ | .subVxVy _ _ | .shrVxVy _ _ | .subnVxVy _ _ | .shlVxVy _ _
  | .sneVxVy _ _ | .ldINNN _ | .jpV0 _ | .rnd _ _ | .ldVxDT _ | .ldVxK _ | .ldDTVx _ | .ldSTVx _ | .addIVx _
  | .ldFVx _ | .ldVxST _ | .nop => none

/-- The state a fault leaves: the fault registers written, everything else as before the `cycle()` (60_exceptions R224). -/
def faultedFrom (s : State) (code : BitVec 3) (info : Word) : State :=
  { s with fault := code, faultPc := s.pc, faultInfo := info }

/-! ### The sprite as a bitmap (44_display R171 to R173) -/

/-- Whether the sprite of `n` rows read from address `a`, its origin at column `x0`, row `y0`, has its bit set at row `r`,
column `c`; no coordinate wraps. -/
def spriteBit (m : Memory) (a x0 y0 n r c : Nat) : Bool :=
  decide (y0 ≤ r) && decide (r < y0 + n) && decide (x0 ≤ c) && decide (c < x0 + 8) &&
    (m.read (a + (r - y0))).getLsbD (7 - (c - x0))

/-- The sprite bit a draw of `x`, `y`, `n` in state `s` brings to a pixel: the origin is wrapped, the sprite is not. -/
def State.spriteAt (s : State) (x y : RegIdx) (n : Nibble) (r : Fin 32) (c : Fin 64) : Bool :=
  spriteBit s.mem s.i.toNat ((s.getV x).toNat % 64) ((s.getV y).toNat % 32) n.toNat r.val c.val

/-- `k` is the lowest-numbered held key (45_input R185). -/
def State.LowestHeld (s : State) (k : Fin 16) : Prop :=
  s.key.get k = true ∧ ∀ j : Fin 16, j < k → s.key.get j = false

end Sys2Proof.Machine
end

