-- ==== Sys2Proof/Certificates/Slice0/Obligations.lean ====
section
/-! DEFINITION. The statements for the provers, each from the numbered rules of spec/ its docstring names. Where a rule rests on
one of the spec's own decisions (92_eei_decisions), the docstring names the decision. The operation code values are those of
30_encoding R75 (decision D11, assumption 3). An instruction's statement is about `exec` on the state its `cycle()` began in;
`StepRunsTheDecodedInstruction` carries it to a step. -/

open Sys2Proof Sys2Proof.Machine

/-! ### Encoding -/

/-- 30_encoding R72, R75: an instruction some word stands for is read back from its word, every operand at every value, for
every setting of LDST_SUBOP. -/
def Obligations.EncodeThenDecodeGivesTheInstruction : Prop :=
  ∀ (ldst : Option Byte) (i : Instr), i.wf ldst = true →
    ∃ w, encodeWith ldst i = some w ∧ decodeWith ldst w = i

/-- 30_encoding R74 against R75: the two-level dispatch and the table of masks give every word the same instruction, for every
setting of LDST_SUBOP. The values rest on decisions D10, D11. -/
def Obligations.DecoderIsTheOpcodeTable : Prop :=
  ∀ (ldst : Option Byte) (w : Word), decodeWith ldst w = decodeByTable ldst w

/-- 30_encoding R78 (a consequence the spec derives): no word belongs to two rows of the table, for every setting of LDST_SUBOP the
spec allows. -/
def Obligations.NoWordBelongsToTwoRows : Prop :=
  ∀ ldst : Option Byte, ldstLegal ldst = true →
    (opcodeRows ldst).Pairwise fun a b => ∀ w : Word, ¬ (w &&& a.mask = a.value ∧ w &&& b.mask = b.value)

/-- 30_encoding R77: the words that are no-ops, for every setting of LDST_SUBOP the spec allows; their whole effect is that `IR`
is latched and `pc` advances by 2. -/
def Obligations.UnassignedWordsAreNops : Prop :=
  (∀ (ldst : Option Byte) (w : Word), ldstLegal ldst = true →
    (decodeWith ldst w = .nop ↔
      (selOf w = 0x0 ∧ nnOf w ≠ 0xE0 ∧ nnOf w ≠ 0xEE) ∨
      (selOf w = 0x8 ∧ nOf w ∈ [0x8#4, 0x9#4, 0xA#4, 0xB#4, 0xC#4, 0xD#4, 0xF#4]) ∨
      (selOf w = 0xE ∧ nnOf w ≠ 0x9E ∧ nnOf w ≠ 0xA1) ∨
      (selOf w = 0xF ∧ nnOf w ∉ [0x07#8, 0x0A#8, 0x15#8, 0x18#8, 0x1E#8, 0x29#8, 0x33#8, 0x55#8, 0x65#8] ∧
        ldst ≠ some (nnOf w)))) ∧
  (∀ s : State, ∃ t, exec .nop s = .next t ∧ t = { s with pc := s.pc + 2 }) ∧
  (∀ s : State, s.Ready → decode s.wordAtPc = .nop →
    step s = .next { s with pc := s.pc + 2, ir := s.wordAtPc })

/-- 30_encoding R76 (decision D10): the bits 11:8 of CLS and RET and the bits 3:0 under the selectors 0x5 and 0x9 select
nothing. -/
def Obligations.IgnoredBitsSelectTheSameInstruction : Prop :=
  ∀ (b x y n : BitVec 4),
    decode (0x0#4 ++ b ++ 0xE0#8) = .cls ∧
    decode (0x0#4 ++ b ++ 0xEE#8) = .ret ∧
    decode (0x5#4 ++ x ++ y ++ n) = .seVxVy x y ∧
    decode (0x9#4 ++ x ++ y ++ n) = .sneVxVy x y

/-- 30_encoding R81, 46_timers R191 (decision D12): while LDST_SUBOP is unset, this model's choice as the spec's default, no word
is `LD Vx, ST`; set to a byte that is free, it selects it; and the instruction copies `ST` into `V[X]` and changes nothing else. -/
def Obligations.SoundTimerLoadHasAWordOnlyWhereTheParameterIsSet : Prop :=
  (∀ (w : Word) (x : RegIdx), decode w ≠ .ldVxST x) ∧
  (∀ (k : Byte) (x : RegIdx), ldstLegal (some k) = true → decodeWith (some k) (0xF#4 ++ x ++ k) = .ldVxST x) ∧
  (∀ (x : RegIdx) (s : State), ∃ t, exec (.ldVxST x) s = .next t ∧
    t.getV x = s.st ∧ RegsKeptBut (· = x) s t ∧ t.pc = s.pc + 2 ∧ AllButRegsKept s t)

/-- 30_encoding R75: one word of each family, its bits written out. A sanity statement. -/
def Obligations.SampleWordsDecodeAsTheTableSays : Prop :=
  decode 0b0001001000110100 = .jp 0b001000110100 ∧
  decode 0b1000000100100111 = .subnVxVy 0b0001 0b0010 ∧
  decode 0b1111001001010101 = .ldMemVx 0b0010 ∧
  decode 0b1101000000010101 = .drw 0b0000 0b0001 0b0101 ∧
  decode 0b1110000110100001 = .sknp 0b0001 ∧
  decode 0b1111000000010101 = .ldDTVx 0b0000 ∧
  decode 0b1000000000011111 = .nop

/-! ### The cycle -/

/-- 40_fetch_dispatch R90 case (4), R91, R94: where the CORE is neither faulted nor blocked and both cells at `pc` exist, `step` runs
the decoded word and then latches it into `IR`, but for an instruction that faulted (60_exceptions R224, decision D4). -/
def Obligations.StepRunsTheDecodedInstruction : Prop :=
  ∀ s : State, s.Ready →
    ∃ t, exec (decode s.wordAtPc) s = .next t ∧
      step s = .next (if t.fault = 0 then { t with ir := s.wordAtPc } else t)

/-- 40_fetch_dispatch R90 cases (1) to (3), R92, 45_input R183 (decisions D4, D19, D1, D20): faulted, nothing changes; else blocked,
the key is polled for the register in `IR[11:8]`; else past 0x0FFE, the fetch faults. -/
def Obligations.CycleWithoutAFetch : Prop :=
  ∀ s : State,
    (s.fault ≠ 0 → step s = .next s) ∧
    (s.fault = 0 → s.block = true → (∀ k : Fin 16, s.key.get k = false) → step s = .next s) ∧
    (s.fault = 0 → s.block = true → ∀ k : Fin 16, s.LowestHeld k →
      ∃ t, step s = .next t ∧ t.block = false ∧ t.getV (s.ir.extractLsb' 8 4) = BitVec.ofNat 8 k.val ∧
        RegsKeptBut (· = s.ir.extractLsb' 8 4) s t ∧ t.pc = s.pc ∧ t.ir = s.ir ∧ t.i = s.i ∧ StackKept s t ∧
        MemKept s t ∧ ScreenKept s t ∧ KeysKept s t ∧ TimersKept s t ∧ FaultKept s t) ∧
    (s.fault = 0 → s.block = false → 0x0FFE < s.pc.toNat → step s = .next (faultedFrom s 1 s.pc))

/-- A step has a next state from every state, a faulted or blocked one included. For decoding this is 30_encoding R78 and
60_exceptions R220(b): no word is illegal. That a fault of the CORE is a next state too, and not `Outcome.fault`, is the model's own
choice (assumption 8, DEDUCED from R224): the spec calls a fault a stop (70_reset_and_hazards R255(h), 93_implementation_defined),
and in the model that stop is a state that every further step leaves as it is. -/
def Obligations.EveryStepAnswersANextState : Prop :=
  ∀ s : State, ∃ t, step s = .next t

/-- 60_exceptions R224, R225 (decision D4): faults are precise. A step that records a fault writes the three fault registers and
nothing else, and the code is one of the six. That the faulting step answers a next state is the model's choice (assumption 8). -/
def Obligations.FaultingStepWritesOnlyTheFaultRegisters : Prop :=
  ∀ s t : State, s.fault = 0 → step s = .next t → t.fault ≠ 0 →
    t.fault.toNat ≤ 6 ∧ t.faultPc = s.pc ∧
    t = { s with fault := t.fault, faultPc := t.faultPc, faultInfo := t.faultInfo }

/-- 60_exceptions R221, R222 (decisions D1 to D4): each instruction faults exactly on the conditions of the table, with its code and
information, and otherwise completes with the fault registers as they were. That a fault is a next state is the model's choice
(assumption 8). -/
def Obligations.FaultsAreRaisedExactlyAsTheTableSays : Prop :=
  ∀ (i : Instr) (s : State),
    (∀ code info, expectedFault i s = some (code, info) → exec i s = .next (faultedFrom s code info)) ∧
    (expectedFault i s = none → ∃ t, exec i s = .next t ∧ FaultKept s t)

/-- 60_exceptions R223, R226, 46_timers R196 (decisions D4, D25): a recorded fault lasts until a reset. Whatever other transaction the
host makes, the fault registers and everything a program works with stay; a tick and a key event still act on their own fields;
and a reset clears the fault. -/
def Obligations.OnlyAResetClearsAFault : Prop :=
  ∀ (σ : Session) (a : Transaction), σ.core.Faulted →
    (a ≠ .reset → FaultKept σ.core (transact σ a).1.core ∧ RegsKept σ.core (transact σ a).1.core ∧
      (transact σ a).1.core.pc = σ.core.pc ∧ (transact σ a).1.core.i = σ.core.i ∧ StackKept σ.core (transact σ a).1.core ∧
      ScreenKept σ.core (transact σ a).1.core) ∧
    (transact σ .cycle).1.core = σ.core ∧
    (transact σ .tick).1.core = tick σ.core ∧
    (∀ k p, (transact σ (.setKey k p)).1.core = setKey k p σ.core) ∧
    (transact σ .reset).1.core.Safe

/-- 40_fetch_dispatch section 1: the uniform advance by 2, with JP and CALL having the final word (RET and JP V0 have statements of
their own). Which executions fault, and so do not advance, rests on decision D4, and that a call needs a stack that is not full on
decision D2. An instruction that is neither a jump nor a skip and does not fault leaves `pc`
at `a + 2`; a skip leaves it at `a + 2` or `a + 4`; a call pushes `a + 2`, and a call's and a jump's target is the final word; and
where the fetch is legal the sum does not wrap. -/
def Obligations.UniformAdvanceOfTheProgramCounter : Prop :=
  (∀ (i : Instr) (s t : State), expectedFault i s = none → exec i s = .next t →
    (i.isJump = false → i.isSkip = false → t.pc = s.pc + 2) ∧
    (i.isSkip = true → t.pc = s.pc + 2 ∨ t.pc = s.pc + 4)) ∧
  (∀ (nnn : Addr12) (s t : State) (h : s.sp.val < 16), exec (.call nnn) s = .next t →
    t.stk[s.sp.val] = s.pc + 2 ∧ t.pc = nnn.setWidth 16) ∧
  (∀ (nnn : Addr12) (s t : State), exec (.jp nnn) s = .next t → t.pc = nnn.setWidth 16) ∧
  (∀ s : State, s.pc.toNat ≤ 0x0FFE → (s.pc + 2).toNat = s.pc.toNat + 2 ∧ (s.pc + 2).toNat ≤ 0x1000)

/-- The invariant holds after reset (10_state R36, R33). -/
def Obligations.StateInvariantHoldsAtReset : Prop := State.reset.Inv

/-- The headline invariant: a step from any state that meets `State.Inv` gives a state that meets it. -/
def Obligations.EveryStepKeepsTheStateInvariant : Prop :=
  ∀ s t : State, s.Inv → step s = .next t → t.Inv

/-- 47_host_interface R210, 70_reset_and_hazards R257: whatever the host does, in whatever order (loads, cycles, ticks, key events,
queries, resets), the CORE's state meets the invariant; stated from every session that meets it, the start being one. -/
def Obligations.EveryHostScheduleKeepsTheStateInvariant : Prop :=
  ∀ (σ : Session) (as : List Transaction), σ.core.Inv → (σ.run as).core.Inv

/-- 10_state R36, 70_reset_and_hazards R250: the reset values. Those of `SP`, `STK`, `DISP`, `KEY`, `BLOCK`, `IR` and the fault
registers are the spec's decisions D14 and D4, the font bytes its D15. A reset brings any state there, the model's own count of
draws apart (assumption 7). -/
def Obligations.ResetLeavesTheValuesOfTheTable : Prop :=
  (∀ r, State.reset.getV r = 0) ∧ State.reset.i = 0 ∧ State.reset.pc = 0x0200 ∧ State.reset.sp = 0 ∧
  (∀ k : Fin 16, State.reset.stk.get k = 0) ∧
  (∀ a, a < 0x1000 → State.reset.mem.read a = if 0x050 ≤ a ∧ a < 0x0A0 then font.getD (a - 0x050) 0 else 0) ∧
  (∀ r c, pixelAt State.reset r c = false) ∧ (∀ k : Fin 16, State.reset.key.get k = false) ∧
  State.reset.dt = 0 ∧ State.reset.st = 0 ∧ State.reset.block = false ∧ State.reset.ir = 0 ∧
  State.reset.fault = 0 ∧ State.reset.faultPc = 0 ∧ State.reset.faultInfo = 0 ∧
  (∀ σ : Session, ∃ d, (transact σ .reset).1 = { core := { State.reset with draws := d }, cycled := false, loaded := false })

/-! ### Control flow (41_control_flow) -/

/-- R100. -/
def Obligations.JumpGoesToItsImmediate : Prop :=
  ∀ nnn : Addr12, decode (0x1#4 ++ nnn) = .jp nnn ∧
    ∀ s : State, ∃ t, exec (.jp nnn) s = .next t ∧ t.pc.toNat = nnn.toNat ∧ RegsKept s t ∧ AllButRegsKept s t

/-- R101 (decision D2 for the depth): a call from a stack that is not full pushes the post-fetch `pc` on the next free entry. -/
def Obligations.CallPushesThePostFetchPc : Prop :=
  ∀ (nnn : Addr12) (s : State), s.sp.val < 16 → ∃ t, exec (.call nnn) s = .next t ∧
    t.pc.toNat = nnn.toNat ∧ t.sp.val = s.sp.val + 1 ∧
    (∀ k : Fin 16, t.stk.get k = if k.val = s.sp.val then s.pc + 2 else s.stk.get k) ∧
    RegsKept s t ∧ t.i = s.i ∧ MemKept s t ∧ ScreenKept s t ∧ KeysKept s t ∧ TimersKept s t ∧ ControlKept s t

/-- R102 (decision D2 for the empty stack): a return from a stack that is not empty restores the entry the decremented pointer
names, and erases no entry. -/
def Obligations.ReturnRestoresTheTopEntry : Prop :=
  ∀ (s : State) (k : Fin 16), s.sp.val = k.val + 1 → ∃ t, exec .ret s = .next t ∧
    t.pc = s.stk.get k ∧ t.sp.val = k.val ∧ t.stk = s.stk ∧
    RegsKept s t ∧ t.i = s.i ∧ MemKept s t ∧ ScreenKept s t ∧ KeysKept s t ∧ TimersKept s t ∧ ControlKept s t

/-- R102's property as 90_conflicts C2 reads it: a step that calls and a step that returns end at `a + 2` with `SP` as before. -/
def Obligations.CallThenReturnComesBack : Prop :=
  ∀ (s : State) (nnn : Addr12), s.Ready → s.sp.val < 16 → decode s.wordAtPc = .call nnn → nnn.toNat ≤ 0x0FFE →
    decode (s.mem.read nnn.toNat ++ s.mem.read (nnn.toNat + 1)) = .ret →
    ∃ t u, step s = .next t ∧ step t = .next u ∧ u.pc = s.pc + 2 ∧ u.sp = s.sp ∧ RegsKept s u ∧ MemKept s u

/-- R103 (decision D24): the sum of the immediate and `V[0]` is not reduced to 12 bits and does not wrap. -/
def Obligations.IndexedJumpAddsRegisterZero : Prop :=
  ∀ (nnn : Addr12) (s : State), ∃ t, exec (.jpV0 nnn) s = .next t ∧
    t.pc.toNat = nnn.toNat + (s.getV 0).toNat ∧ RegsKept s t ∧ AllButRegsKept s t

/-- R104, R105. -/
def Obligations.SkipsAgainstAnImmediate : Prop :=
  ∀ (x : RegIdx) (nn : Byte),
    decode (0x3#4 ++ x ++ nn) = .seVxNN x nn ∧ decode (0x4#4 ++ x ++ nn) = .sneVxNN x nn ∧
    ∀ s : State,
      (∃ t, exec (.seVxNN x nn) s = .next t ∧ t.pc = (if s.getV x = nn then s.pc + 4 else s.pc + 2) ∧
        RegsKept s t ∧ AllButRegsKept s t) ∧
      (∃ t, exec (.sneVxNN x nn) s = .next t ∧ t.pc = (if s.getV x = nn then s.pc + 2 else s.pc + 4) ∧
        RegsKept s t ∧ AllButRegsKept s t)

/-- R106, R107: the low nibble is ignored. -/
def Obligations.SkipsAgainstARegister : Prop :=
  ∀ (x y : RegIdx),
    (∀ n : Nibble, decode (0x5#4 ++ x ++ y ++ n) = .seVxVy x y ∧ decode (0x9#4 ++ x ++ y ++ n) = .sneVxVy x y) ∧
    ∀ s : State,
      (∃ t, exec (.seVxVy x y) s = .next t ∧ t.pc = (if s.getV x = s.getV y then s.pc + 4 else s.pc + 2) ∧
        RegsKept s t ∧ AllButRegsKept s t) ∧
      (∃ t, exec (.sneVxVy x y) s = .next t ∧ t.pc = (if s.getV x = s.getV y then s.pc + 2 else s.pc + 4) ∧
        RegsKept s t ∧ AllButRegsKept s t)

/-! ### Arithmetic and logic (42_alu) -/

/-- R120. -/
def Obligations.LoadImmediateWritesTheRegister : Prop :=
  ∀ (x : RegIdx) (nn : Byte), decode (0x6#4 ++ x ++ nn) = .ldVxNN x nn ∧
    ∀ s : State, ∃ t, exec (.ldVxNN x nn) s = .next t ∧
      t.getV x = nn ∧ RegsKeptBut (· = x) s t ∧ t.pc = s.pc + 2 ∧ AllButRegsKept s t

/-- R121, with its property: two immediate adds are one add of the sum modulo 256. VF is a kept register unless `X = 15`. -/
def Obligations.AddImmediateWrapsAndComposes : Prop :=
  ∀ (x : RegIdx) (nn : Byte), decode (0x7#4 ++ x ++ nn) = .addVxNN x nn ∧
    ∀ s : State, ∃ t, exec (.addVxNN x nn) s = .next t ∧
      (t.getV x).toNat = ((s.getV x).toNat + nn.toNat) % 256 ∧
      RegsKeptBut (· = x) s t ∧ t.pc = s.pc + 2 ∧ AllButRegsKept s t ∧
      ∀ mm : Byte, ∃ u u', exec (.addVxNN x mm) t = .next u ∧
        exec (.addVxNN x (BitVec.ofNat 8 (nn.toNat + mm.toNat))) s = .next u' ∧ RegsKept u u'

/-- R123. -/
def Obligations.CopyWritesTheSourceRegister : Prop :=
  ∀ x y : RegIdx, decode (0x8#4 ++ x ++ y ++ 0x0#4) = .ldVxVy x y ∧
    ∀ s : State, ∃ t, exec (.ldVxVy x y) s = .next t ∧
      t.getV x = s.getV y ∧ RegsKeptBut (· = x) s t ∧ t.pc = s.pc + 2 ∧ AllButRegsKept s t

/-- R124 to R126, each bit of the result; VF is a kept register unless `X = 15` (decision D21). -/
def Obligations.LogicIsBitwiseAndLeavesTheFlag : Prop :=
  ∀ (x y : RegIdx) (s : State),
    (∃ t, exec (.orVxVy x y) s = .next t ∧
      (∀ k, k < 8 → (t.getV x).getLsbD k = ((s.getV x).getLsbD k || (s.getV y).getLsbD k)) ∧
      RegsKeptBut (· = x) s t ∧ t.pc = s.pc + 2 ∧ AllButRegsKept s t) ∧
    (∃ t, exec (.andVxVy x y) s = .next t ∧
      (∀ k, k < 8 → (t.getV x).getLsbD k = ((s.getV x).getLsbD k && (s.getV y).getLsbD k)) ∧
      RegsKeptBut (· = x) s t ∧ t.pc = s.pc + 2 ∧ AllButRegsKept s t) ∧
    (∃ t, exec (.xorVxVy x y) s = .next t ∧
      (∀ k, k < 8 → (t.getV x).getLsbD k = ((s.getV x).getLsbD k != (s.getV y).getLsbD k)) ∧
      RegsKeptBut (· = x) s t ∧ t.pc = s.pc + 2 ∧ AllButRegsKept s t)

/-- R127, R122 (decisions D5, D6): the operands are latched, the destination holds the low 8 bits of the sum, and VF is 1 exactly
when it exceeds 255, where the destination is not VF itself. -/
def Obligations.AddWritesTheSumAndTheCarry : Prop :=
  ∀ (x y : RegIdx) (s : State), ∃ t, exec (.addVxVy x y) s = .next t ∧
    (t.getV x).toNat = ((s.getV x).toNat + (s.getV y).toNat) % 256 ∧
    (x ≠ 15 → t.getV 15 = if 255 < (s.getV x).toNat + (s.getV y).toNat then 1 else 0) ∧
    RegsKeptBut (fun r => r = x ∨ r = 15) s t ∧ t.pc = s.pc + 2 ∧ AllButRegsKept s t

/-- R128, R130, R122 (decisions D5, D6): both operand orders; VF is 1 exactly when no borrow occurs, where the destination is not
VF itself. -/
def Obligations.SubtractWritesTheDifferenceAndNoBorrow : Prop :=
  ∀ (x y : RegIdx) (s : State),
    (∃ t, exec (.subVxVy x y) s = .next t ∧
      (t.getV x).toNat = ((s.getV x).toNat + 256 - (s.getV y).toNat) % 256 ∧
      (x ≠ 15 → t.getV 15 = if (s.getV y).toNat ≤ (s.getV x).toNat then 1 else 0) ∧
      RegsKeptBut (fun r => r = x ∨ r = 15) s t ∧ t.pc = s.pc + 2 ∧ AllButRegsKept s t) ∧
    (∃ t, exec (.subnVxVy x y) s = .next t ∧
      (t.getV x).toNat = ((s.getV y).toNat + 256 - (s.getV x).toNat) % 256 ∧
      (x ≠ 15 → t.getV 15 = if (s.getV x).toNat ≤ (s.getV y).toNat then 1 else 0) ∧
      RegsKeptBut (fun r => r = x ∨ r = 15) s t ∧ t.pc = s.pc + 2 ∧ AllButRegsKept s t)

/-- R129, R131, R122 (decisions D5, D6): the shifted value comes from `V[Y]`; VF is the bit shifted out, where the destination is not
VF itself. -/
def Obligations.ShiftsTakeTheirValueFromVy : Prop :=
  ∀ (x y : RegIdx) (s : State),
    (∃ t, exec (.shrVxVy x y) s = .next t ∧
      (t.getV x).toNat = (s.getV y).toNat / 2 ∧
      (x ≠ 15 → (t.getV 15).toNat = (s.getV y).toNat % 2) ∧
      RegsKeptBut (fun r => r = x ∨ r = 15) s t ∧ t.pc = s.pc + 2 ∧ AllButRegsKept s t) ∧
    (∃ t, exec (.shlVxVy x y) s = .next t ∧
      (t.getV x).toNat = (s.getV y).toNat * 2 % 256 ∧
      (x ≠ 15 → (t.getV 15).toNat = (s.getV y).toNat / 128) ∧
      RegsKeptBut (fun r => r = x ∨ r = 15) s t ∧ t.pc = s.pc + 2 ∧ AllButRegsKept s t)

/-- R134 (decision D13): some byte, masked; what a program can rely on is that no bit outside the mask is set and that the result is
at most the mask. Nothing is said of the byte (assumption 6). -/
def Obligations.RandomByteIsMasked : Prop :=
  ∀ (x : RegIdx) (nn : Byte) (s : State), ∃ t, exec (.rnd x nn) s = .next t ∧
    (∃ r : Byte, t.getV x = r &&& nn) ∧ t.getV x &&& ~~~nn = 0 ∧ (t.getV x).toNat ≤ nn.toNat ∧
    RegsKeptBut (· = x) s t ∧ t.pc = s.pc + 2 ∧ AllButRegsKept s t

/-! ### Memory and the address register (43_memory_index) -/

/-- R150. -/
def Obligations.LoadAddressRegisterImmediate : Prop :=
  ∀ nnn : Addr12, decode (0xA#4 ++ nnn) = .ldINNN nnn ∧
    ∀ s : State, ∃ t, exec (.ldINNN nnn) s = .next t ∧ t.i.toNat = nnn.toNat ∧ t.pc = s.pc + 2 ∧ RegsKept s t ∧
      StackKept s t ∧ MemKept s t ∧ ScreenKept s t ∧ KeysKept s t ∧ TimersKept s t ∧ ControlKept s t

/-- R151 (decision D7): `I` wraps modulo 65536; VF is always written, from the unbounded sum. -/
def Obligations.AddToAddressRegisterFlagsTheRange : Prop :=
  ∀ (x : RegIdx) (s : State), ∃ t, exec (.addIVx x) s = .next t ∧
    t.i.toNat = (s.i.toNat + (s.getV x).toNat) % 65536 ∧
    t.getV 15 = (if 0x0FFF < s.i.toNat + (s.getV x).toNat then 1 else 0) ∧
    RegsKeptBut (· = 15) s t ∧ t.pc = s.pc + 2 ∧
    StackKept s t ∧ MemKept s t ∧ ScreenKept s t ∧ KeysKept s t ∧ TimersKept s t ∧ ControlKept s t

/-- R152 (decision D8 above 15): the font base plus five times the whole register; at reset memory, the address of the digit's
glyph, five font bytes (10_state R31, decision D15). -/
def Obligations.FontPointerIsBasePlusFiveTimesTheDigit : Prop :=
  ∀ (x : RegIdx) (s : State), ∃ t, exec (.ldFVx x) s = .next t ∧
    t.i.toNat = 0x050 + 5 * (s.getV x).toNat ∧
    ((s.getV x).toNat ≤ 15 → ∀ j, j < 5 →
      State.reset.mem.read (t.i.toNat + j) = font.getD (5 * (s.getV x).toNat + j) 0) ∧
    t.pc = s.pc + 2 ∧ RegsKept s t ∧
    StackKept s t ∧ MemKept s t ∧ ScreenKept s t ∧ KeysKept s t ∧ TimersKept s t ∧ ControlKept s t

/-- R153 (decision D1 for the range): hundreds, tens, ones at `I`, `I + 1`, `I + 2`, wherever these cells lie (R56, decision D16);
`I` is unchanged. -/
def Obligations.DecimalDigitsAreStoredAtI : Prop :=
  ∀ (x : RegIdx) (s : State), s.i.toNat + 2 ≤ 0x0FFF → ∃ t, exec (.ldBVx x) s = .next t ∧
    (t.mem.read s.i.toNat).toNat = (s.getV x).toNat / 100 ∧
    (t.mem.read (s.i.toNat + 1)).toNat = (s.getV x).toNat / 10 % 10 ∧
    (t.mem.read (s.i.toNat + 2)).toNat = (s.getV x).toNat % 10 ∧
    MemKeptBut s.i.toNat 3 s t ∧ RegsKept s t ∧ t.i = s.i ∧ t.pc = s.pc + 2 ∧
    StackKept s t ∧ ScreenKept s t ∧ KeysKept s t ∧ TimersKept s t ∧ ControlKept s t

/-- R155 (decision D1 for the range): `V[0]` to `V[X]` go to `I` to `I + X`, and `I` moves past them. -/
def Obligations.StoreBlockWritesTheFirstRegisters : Prop :=
  ∀ (x : RegIdx) (s : State), s.i.toNat + x.toNat ≤ 0x0FFF → ∃ t, exec (.ldMemVx x) s = .next t ∧
    (∀ k : RegIdx, k.toNat ≤ x.toNat → t.mem.read (s.i.toNat + k.toNat) = s.getV k) ∧
    MemKeptBut s.i.toNat (x.toNat + 1) s t ∧ t.i.toNat = s.i.toNat + x.toNat + 1 ∧ RegsKept s t ∧ t.pc = s.pc + 2 ∧
    StackKept s t ∧ ScreenKept s t ∧ KeysKept s t ∧ TimersKept s t ∧ ControlKept s t

/-- R156 (decision D1 for the range): `V[0]` to `V[X]` come from `I` to `I + X`; registers above `X` are untouched. -/
def Obligations.LoadBlockReadsTheFirstRegisters : Prop :=
  ∀ (x : RegIdx) (s : State), s.i.toNat + x.toNat ≤ 0x0FFF → ∃ t, exec (.ldVxMem x) s = .next t ∧
    (∀ k : RegIdx, k.toNat ≤ x.toNat → t.getV k = s.mem.read (s.i.toNat + k.toNat)) ∧
    RegsKeptBut (fun r => r.toNat ≤ x.toNat) s t ∧ t.i.toNat = s.i.toNat + x.toNat + 1 ∧ t.pc = s.pc + 2 ∧
    StackKept s t ∧ MemKept s t ∧ ScreenKept s t ∧ KeysKept s t ∧ TimersKept s t ∧ ControlKept s t

/-- R157 (a consequence the spec derives): a store and then a load of the same block. With `I` reloaded, whatever the registers hold
by then, the registers `V[0]` to `V[X]` are restored and `I` ends at `I0 + X + 1`; without, `I` ends at `I0 + 2(X + 1)` and the
registers come from the cells after the stored block. -/
def Obligations.StoreThenLoadRoundTrips : Prop :=
  ∀ (x : RegIdx) (s t : State), s.i.toNat + x.toNat ≤ 0x0FFF → exec (.ldMemVx x) s = .next t →
    (∀ v : Vector Byte 16, ∃ u, exec (.ldVxMem x) { t with i := s.i, v := v } = .next u ∧
      (∀ k : RegIdx, k.toNat ≤ x.toNat → u.getV k = s.getV k) ∧ u.i.toNat = s.i.toNat + (x.toNat + 1)) ∧
    (s.i.toNat + 2 * x.toNat + 1 ≤ 0x0FFF → ∃ u, exec (.ldVxMem x) t = .next u ∧
      u.i.toNat = s.i.toNat + 2 * (x.toNat + 1) ∧
      (∀ k : RegIdx, k.toNat ≤ x.toNat → u.getV k = s.mem.read (s.i.toNat + x.toNat + 1 + k.toNat)))

/-! ### The display (44_display) -/

/-- R170: every pixel 0, VF and everything else as before, whatever the bits 11:8 of the word. -/
def Obligations.ClearScreenClearsEveryPixel : Prop :=
  (∀ b : BitVec 4, decode (0x0#4 ++ b ++ 0xE0#8) = .cls) ∧
  ∀ s : State, ∃ t, exec .cls s = .next t ∧ (∀ r c, pixelAt t r c = false) ∧ RegsKept s t ∧ t.i = s.i ∧ t.pc = s.pc + 2 ∧
    StackKept s t ∧ MemKept s t ∧ KeysKept s t ∧ TimersKept s t ∧ ControlKept s t

/-- R171 to R173 (decisions D9, D23): the composing of a sprite pixel by pixel, as R171's loops do it, is the exclusive-or of the
display with the clipped sprite, and VF is 1 exactly when a set pixel is hit by a set sprite bit. The coordinates are those
before the draw. -/
def Obligations.DrawIsTheXorOfTheClippedSprite : Prop :=
  ∀ (x y : RegIdx) (n : Nibble) (s : State), (n = 0 ∨ s.i.toNat + n.toNat - 1 ≤ 0x0FFF) →
    ∃ t, exec (.drw x y n) s = .next t ∧
      (∀ r c, pixelAt t r c = (pixelAt s r c != s.spriteAt x y n r c)) ∧
      ((∃ r c, pixelAt s r c = true ∧ s.spriteAt x y n r c = true) → t.getV 15 = 1) ∧
      ((¬ ∃ r c, pixelAt s r c = true ∧ s.spriteAt x y n r c = true) → t.getV 15 = 0) ∧
      RegsKeptBut (· = 15) s t ∧ t.i = s.i ∧ t.pc = s.pc + 2 ∧
      StackKept s t ∧ MemKept s t ∧ KeysKept s t ∧ TimersKept s t ∧ ControlKept s t

/-- R174: the same sprite drawn twice at the same origin (no coordinate in VF, which the first draw writes) restores the display;
on an empty display the first draw leaves VF 0 and the second leaves it 1 exactly when the sprite has a set bit inside the display
(R174's sentence holds only where the first draw meets no set pixel: assumption 17). -/
def Obligations.DrawingTwiceRestoresTheDisplay : Prop :=
  ∀ (x y : RegIdx) (n : Nibble) (s : State), x ≠ 15 → y ≠ 15 → (n = 0 ∨ s.i.toNat + n.toNat - 1 ≤ 0x0FFF) →
    ∃ t u, exec (.drw x y n) s = .next t ∧ exec (.drw x y n) t = .next u ∧ ScreenKept s u ∧
      ((∀ r c, pixelAt s r c = false) → t.getV 15 = 0 ∧ (u.getV 15 = 1 ↔ ∃ r c, s.spriteAt x y n r c = true))

/-! ### Input (45_input) -/

/-- R180, R181 (decision D3 for the range): a skip on the key a register names. -/
def Obligations.KeySkipsReadTheNamedKey : Prop :=
  ∀ (x : RegIdx) (s : State) (k : Fin 16), (s.getV x).toNat = k.val →
    (∃ t, exec (.skp x) s = .next t ∧ t.pc = (if s.key.get k = true then s.pc + 4 else s.pc + 2) ∧
      RegsKept s t ∧ AllButRegsKept s t) ∧
    (∃ t, exec (.sknp x) s = .next t ∧ t.pc = (if s.key.get k = true then s.pc + 2 else s.pc + 4) ∧
      RegsKept s t ∧ AllButRegsKept s t)

/-- R182, R185: with a key held the instruction completes at once, the lowest-numbered held key in the register; with none it sets
BLOCK and writes no register. In both cases `pc` is `a + 2`. -/
def Obligations.WaitForKeyTakesTheLowestHeldKey : Prop :=
  ∀ x : RegIdx, decode (0xF#4 ++ x ++ 0x0A#8) = .ldVxK x ∧
    ∀ s : State,
      (∀ k : Fin 16, s.LowestHeld k → ∃ t, exec (.ldVxK x) s = .next t ∧
        t.block = false ∧ (t.getV x).toNat = k.val ∧ RegsKeptBut (· = x) s t ∧ t.pc = s.pc + 2 ∧ t.i = s.i ∧
        StackKept s t ∧ MemKept s t ∧ ScreenKept s t ∧ KeysKept s t ∧ TimersKept s t ∧ t.ir = s.ir ∧ FaultKept s t) ∧
      ((∀ k : Fin 16, s.key.get k = false) → ∃ t, exec (.ldVxK x) s = .next t ∧
        t.block = true ∧ RegsKept s t ∧ t.pc = s.pc + 2 ∧ t.i = s.i ∧
        StackKept s t ∧ MemKept s t ∧ ScreenKept s t ∧ KeysKept s t ∧ TimersKept s t ∧ t.ir = s.ir ∧ FaultKept s t)

/-- R184: the two-state machine of BLOCK. From RUN a cycle stays in RUN but where it fetches a wait-for-key with no key held; from
WAIT it leaves, into the register of `IR[11:8]`, exactly when a key is held, and otherwise changes nothing; no fault arises in WAIT;
key events, ticks and queries leave BLOCK as it is. -/
def Obligations.BlockingStateMachine : Prop :=
  (∀ s : State, s.Ready → (∀ x, decode s.wordAtPc ≠ .ldVxK x) → ∃ t, step s = .next t ∧ t.block = false) ∧
  (∀ (s : State) (x : RegIdx), s.Ready → decode s.wordAtPc = .ldVxK x →
    (∀ k : Fin 16, s.LowestHeld k →
      ∃ t, step s = .next t ∧ t.block = false ∧ (t.getV x).toNat = k.val ∧ t.pc = s.pc + 2 ∧ t.ir = s.wordAtPc) ∧
    ((∀ k : Fin 16, s.key.get k = false) →
      step s = .next { s with block := true, pc := s.pc + 2, ir := s.wordAtPc })) ∧
  (∀ s : State, s.fault = 0 → s.block = true →
    ((∀ k : Fin 16, s.key.get k = false) → step s = .next s) ∧
    (∀ k : Fin 16, s.LowestHeld k → ∃ t, step s = .next t ∧ t.block = false ∧
      (t.getV (s.ir.extractLsb' 8 4)).toNat = k.val ∧ t.pc = s.pc ∧ t.fault = 0)) ∧
  (∀ (σ : Session) (a : Transaction), a ≠ .reset → a ≠ .cycle → (transact σ a).1.core.block = σ.core.block)

/-! ### Timers (46_timers) -/

/-- R190, R192, R193. -/
def Obligations.TimerLoadsCopyBetweenRegisterAndCounter : Prop :=
  ∀ x : RegIdx,
    decode (0xF#4 ++ x ++ 0x07#8) = .ldVxDT x ∧ decode (0xF#4 ++ x ++ 0x15#8) = .ldDTVx x ∧
    decode (0xF#4 ++ x ++ 0x18#8) = .ldSTVx x ∧
    ∀ s : State,
      (∃ t, exec (.ldVxDT x) s = .next t ∧ t.getV x = s.dt ∧ RegsKeptBut (· = x) s t ∧ t.pc = s.pc + 2 ∧
        AllButRegsKept s t) ∧
      (∃ t, exec (.ldDTVx x) s = .next t ∧ t.dt = s.getV x ∧ t.st = s.st ∧ RegsKept s t ∧ t.pc = s.pc + 2 ∧ t.i = s.i ∧
        StackKept s t ∧ MemKept s t ∧ ScreenKept s t ∧ KeysKept s t ∧ ControlKept s t) ∧
      (∃ t, exec (.ldSTVx x) s = .next t ∧ t.st = s.getV x ∧ t.dt = s.dt ∧ RegsKept s t ∧ t.pc = s.pc + 2 ∧ t.i = s.i ∧
        StackKept s t ∧ MemKept s t ∧ ScreenKept s t ∧ KeysKept s t ∧ ControlKept s t)

/-- R195, R194: a tick takes 1 from each nonzero counter and leaves a zero one, and changes nothing else, blocked or faulted (R196);
after `n` ticks a counter loaded with `v` holds `v - n`, 0 from the `v`-th tick on, and the sound gate is true exactly while
`ST` is nonzero. -/
def Obligations.TicksCountBothTimersDownToZero : Prop :=
  ∀ s : State,
    tick s = { s with dt := BitVec.ofNat 8 (s.dt.toNat - 1), st := BitVec.ofNat 8 (s.st.toNat - 1) } ∧
    ∀ n : Nat, (tick^[n] s).dt.toNat = s.dt.toNat - n ∧ (tick^[n] s).st.toNat = s.st.toNat - n ∧
      (isSoundActive (tick^[n] s) = true ↔ n < s.st.toNat)

/-- R196, 47_host_interface R210 (decision D18): a tick may be taken before or after a cycle with the same result, but for a cycle
that executes one of the four timer instructions. -/
def Obligations.TickCommutesWithACycleThatUsesNoTimer : Prop :=
  ∀ s : State, (s.Ready → (decode s.wordAtPc).isTimer = false) →
    ∃ t, step s = .next t ∧ step (tick s) = .next (tick t)

/-! ### The host interface (47_host_interface) -/

/-- R204, 45_input R184 (decision D28 for the argument): one flag is written, the last write wins, BLOCK is left alone, and a waiting
engine sees the key at its next cycle, a key released before it never. -/
def Obligations.KeyEventsWriteOneFlag : Prop :=
  ∀ (s : State) (k : Fin 16) (p : Bool),
    (∀ j : Fin 16, (setKey k p s).key.get j = if j = k then p else s.key.get j) ∧
    setKey k p s = { s with key := (setKey k p s).key } ∧
    (s.fault = 0 → s.Waiting →
      (∃ t, step (setKey k true s) = .next t ∧ t.block = false ∧ (t.getV (s.ir.extractLsb' 8 4)).toNat = k.val ∧
        t.pc = s.pc) ∧
      step (setKey k false (setKey k true s)) = .next s)

/-- Before the first cycle and before any other load, R203 and decision D17: a sequence of at most 3584 bytes is copied to 0x200 on
and nothing else changes; a longer one fails and nothing is written, so that a load may still follow it (assumption 18). The last
clause is the model's own choice, since the spec calls such loads unsaid and leaves a model two treatments of them
(93_implementation_defined A14): a load after the first cycle (assumption 12, DESIGN CHOICE) and one after a load that was done
(assumption 18, DESIGN CHOICE) are refused and change nothing. -/
def Obligations.ProgramLoadCopiesVerbatimOrFails : Prop :=
  ∀ (σ : Session) (b : List Byte),
    (σ.cycled = false → σ.loaded = false → b.length ≤ 3584 →
      ∃ m, transact σ (.load b) = ({ σ with core := { σ.core with mem := m }, loaded := true }, .success) ∧
      (∀ j, j < b.length → m.read (0x200 + j) = b.getD j 0) ∧
      (∀ a, ¬ (0x200 ≤ a ∧ a < 0x200 + b.length) → m.read a = σ.core.mem.read a)) ∧
    (σ.cycled = false → σ.loaded = false → 3584 < b.length → transact σ (.load b) = (σ, .failure)) ∧
    (σ.cycled = true ∨ σ.loaded = true → transact σ (.load b) = (σ, .notAccepted))

/-- 10_state R37: what each transaction may write. `cycle()` never writes KEY; `tick()` writes only the timers; `setKey` only key
flags; a load only memory; the queries nothing. -/
def Obligations.TransactionsWriteOnlyWhatTheyName : Prop :=
  ∀ σ : Session,
    KeysKept σ.core (transact σ .cycle).1.core ∧
    (∃ d e, (transact σ .tick).1 = { σ with core := { σ.core with dt := d, st := e } }) ∧
    (∀ k p, ∃ ks, (transact σ (.setKey k p)).1 = { σ with core := { σ.core with key := ks } }) ∧
    (∀ b, ∃ m l, (transact σ (.load b)).1 = { σ with core := { σ.core with mem := m }, loaded := l }) ∧
    (∀ r c, transact σ (.pixelAt r c) = (σ, .bit (pixelAt σ.core r c))) ∧
    transact σ .isSoundActive = (σ, .bit (isSoundActive σ.core)) ∧
    transact σ .faultStatus = (σ, .status σ.core.fault σ.core.faultPc σ.core.faultInfo)

/-! ### Whole-machine rules -/

/-- 10_state R23, R25, R28, R29, R30, R32 and 20_memory R54: each store is written only by its own instructions. -/
def Obligations.EachStoreHasItsOwnWriters : Prop :=
  ∀ (i : Instr) (s t : State), exec i s = .next t →
    KeysKept s t ∧ t.ir = s.ir ∧
    ((i ≠ .cls ∧ ∀ x y n, i ≠ .drw x y n) → ScreenKept s t) ∧
    ((i ≠ .ret ∧ ∀ nnn, i ≠ .call nnn) → StackKept s t) ∧
    ((∀ x, i ≠ .ldDTVx x) → t.dt = s.dt) ∧
    ((∀ x, i ≠ .ldSTVx x) → t.st = s.st) ∧
    ((∀ x, i ≠ .ldVxK x) → t.block = s.block) ∧
    ((∀ x, i ≠ .ldBVx x) ∧ (∀ x, i ≠ .ldMemVx x) → MemKept s t) ∧
    ((∀ nnn, i ≠ .ldINNN nnn) ∧ (∀ x, i ≠ .addIVx x) ∧ (∀ x, i ≠ .ldFVx x) ∧ (∀ x, i ≠ .ldMemVx x) ∧
      (∀ x, i ≠ .ldVxMem x) → t.i = s.i)

/-- 10_state R21, R22: a general register is written only where an instruction names it as its destination, and VF also by the seven
flag outputs, each of which leaves the byte 0 or 1 there unless it names VF as its destination. -/
def Obligations.FlagRegisterHasSevenImplicitWriters : Prop :=
  ∀ (i : Instr) (s t : State), exec i s = .next t →
    RegsKeptBut (fun r => i.isDest r ∨ (r = 15 ∧ i.writesFlag = true)) s t ∧
    (i.writesFlag = true → ¬ i.isDest 15 → expectedFault i s = none → t.getV 15 = 0 ∨ t.getV 15 = 1)

/-- 47_host_interface R212: the quiescent conditions last. A faulted or a waiting CORE is unchanged by a cycle, and a self-loop is
unchanged but for `IR`, which holds the jump, and is one again. -/
def Obligations.QuiescentStatesStay : Prop :=
  ∀ s : State,
    (s.Faulted → step s = .next s) ∧
    (s.Waiting → step s = .next s) ∧
    (s.SelfLoop → step s = .next { s with ir := s.wordAtPc } ∧ State.SelfLoop { s with ir := s.wordAtPc })

/-- 40_fetch_dispatch R96, 70_reset_and_hazards R253 (a consequence the spec derives), about the one state `State.reset`: a CORE
cycled with nothing loaded walks through memory doing nothing and faults on the 1793rd call. -/
def Obligations.UnloadedCoreWalksToTheEndOfMemory : Prop :=
  (∀ n : Nat, n ≤ 1792 → Sys2Proof.core.run n State.reset = .next { State.reset with pc := BitVec.ofNat 16 (0x200 + 2 * n) }) ∧
  (∀ n : Nat, 1793 ≤ n → Sys2Proof.core.run n State.reset =
    .next { State.reset with pc := 0x1000, fault := 1, faultPc := 0x1000, faultInfo := 0x1000 })

/-- 10_state R33 (decision D19): `IR` is read only by the blocked poll, and there only its bits 11:8. Two states that differ in `IR`
alone step to states that differ in `IR` alone. -/
def Obligations.InstructionRegisterIsSeenOnlyByTheBlockedPoll : Prop :=
  ∀ (s : State) (w : Word), (s.block = true → w.extractLsb' 8 4 = s.ir.extractLsb' 8 4) →
    ∃ t t', step s = .next t ∧ step { s with ir := w } = .next t' ∧ t' = { t with ir := t'.ir }

/-- Two memories in canonical form that read alike are the same list: the model's form of `MEM` (assumption 11). -/
def Obligations.CanonicalMemoriesAreEqualWhenTheyReadAlike : Prop :=
  ∀ m m' : Memory, m.wf = true → m'.wf = true → (∀ a, a < 0x1000 → m.read a = m'.read a) → m = m'
end

