-- ==== Sys2Proof/Laws/Decode.lean ====
section
/-! SUPPORT. The fields of a word written as its selector, operands and key side by side (30_encoding R71, R72). -/

namespace Sys2Proof

/-! ### Layout `XNN` -/

@[simp] theorem selOf_xnn (s x : BitVec 4) (nn : Byte) : selOf (s ++ x ++ nn) = s := by
  apply BitVec.eq_of_getLsbD_eq
  intro i hi
  simp only [selOf, BitVec.getLsbD_extractLsb', BitVec.getLsbD_append]
  interval_cases i <;> simp

@[simp] theorem xOf_xnn (s x : BitVec 4) (nn : Byte) : xOf (s ++ x ++ nn) = x := by
  apply BitVec.eq_of_getLsbD_eq
  intro i hi
  simp only [xOf, BitVec.getLsbD_extractLsb', BitVec.getLsbD_append]
  interval_cases i <;> simp

@[simp] theorem nnOf_xnn (s x : BitVec 4) (nn : Byte) : nnOf (s ++ x ++ nn) = nn := by
  apply BitVec.eq_of_getLsbD_eq
  intro i hi
  simp only [nnOf, BitVec.getLsbD_extractLsb', BitVec.getLsbD_append]
  interval_cases i <;> simp

/-! ### Layout `A` -/

@[simp] theorem selOf_nnn (s : BitVec 4) (nnn : Addr12) : selOf (s ++ nnn) = s := by
  apply BitVec.eq_of_getLsbD_eq
  intro i hi
  simp only [selOf, BitVec.getLsbD_extractLsb', BitVec.getLsbD_append]
  interval_cases i <;> simp

@[simp] theorem nnnOf_nnn (s : BitVec 4) (nnn : Addr12) : nnnOf (s ++ nnn) = nnn := by
  apply BitVec.eq_of_getLsbD_eq
  intro i hi
  simp only [nnnOf, BitVec.getLsbD_extractLsb', BitVec.getLsbD_append]
  interval_cases i <;> simp

/-! ### Layout `XYN` -/

@[simp] theorem selOf_xyn (s x y n : BitVec 4) : selOf (s ++ x ++ y ++ n) = s := by
  apply BitVec.eq_of_getLsbD_eq
  intro i hi
  simp only [selOf, BitVec.getLsbD_extractLsb', BitVec.getLsbD_append]
  interval_cases i <;> simp

@[simp] theorem xOf_xyn (s x y n : BitVec 4) : xOf (s ++ x ++ y ++ n) = x := by
  apply BitVec.eq_of_getLsbD_eq
  intro i hi
  simp only [xOf, BitVec.getLsbD_extractLsb', BitVec.getLsbD_append]
  interval_cases i <;> simp

@[simp] theorem yOf_xyn (s x y n : BitVec 4) : yOf (s ++ x ++ y ++ n) = y := by
  apply BitVec.eq_of_getLsbD_eq
  intro i hi
  simp only [yOf, BitVec.getLsbD_extractLsb', BitVec.getLsbD_append]
  interval_cases i <;> simp

@[simp] theorem nOf_xyn (s x y n : BitVec 4) : nOf (s ++ x ++ y ++ n) = n := by
  apply BitVec.eq_of_getLsbD_eq
  intro i hi
  simp only [nOf, BitVec.getLsbD_extractLsb', BitVec.getLsbD_append]
  interval_cases i <;> simp

end Sys2Proof
end

