-- ==== Sys2Proof/Laws/State.lean ====
section
/-! SUPPORT. What each named update of State does to each field: one lemma per field per update, so that no later proof
unfolds a record update. -/

namespace Sys2Proof.Machine

/-! ### `setV` -/

@[simp] theorem State.setV_i (s : State) (x : RegIdx) (b : Byte) : (s.setV x b).i = s.i := rfl
@[simp] theorem State.setV_pc (s : State) (x : RegIdx) (b : Byte) : (s.setV x b).pc = s.pc := rfl
@[simp] theorem State.setV_sp (s : State) (x : RegIdx) (b : Byte) : (s.setV x b).sp = s.sp := rfl
@[simp] theorem State.setV_stk (s : State) (x : RegIdx) (b : Byte) : (s.setV x b).stk = s.stk := rfl
@[simp] theorem State.setV_mem (s : State) (x : RegIdx) (b : Byte) : (s.setV x b).mem = s.mem := rfl
@[simp] theorem State.setV_disp (s : State) (x : RegIdx) (b : Byte) : (s.setV x b).disp = s.disp := rfl
@[simp] theorem State.setV_key (s : State) (x : RegIdx) (b : Byte) : (s.setV x b).key = s.key := rfl
@[simp] theorem State.setV_dt (s : State) (x : RegIdx) (b : Byte) : (s.setV x b).dt = s.dt := rfl
@[simp] theorem State.setV_st (s : State) (x : RegIdx) (b : Byte) : (s.setV x b).st = s.st := rfl
@[simp] theorem State.setV_block (s : State) (x : RegIdx) (b : Byte) : (s.setV x b).block = s.block := rfl
@[simp] theorem State.setV_ir (s : State) (x : RegIdx) (b : Byte) : (s.setV x b).ir = s.ir := rfl
@[simp] theorem State.setV_fault (s : State) (x : RegIdx) (b : Byte) : (s.setV x b).fault = s.fault := rfl
@[simp] theorem State.setV_faultPc (s : State) (x : RegIdx) (b : Byte) : (s.setV x b).faultPc = s.faultPc := rfl
@[simp] theorem State.setV_faultInfo (s : State) (x : RegIdx) (b : Byte) : (s.setV x b).faultInfo = s.faultInfo := rfl
@[simp] theorem State.setV_draws (s : State) (x : RegIdx) (b : Byte) : (s.setV x b).draws = s.draws := rfl

/-! ### `advance` -/

@[simp] theorem State.advance_v (s : State) : (s.advance).v = s.v := rfl
@[simp] theorem State.advance_i (s : State) : (s.advance).i = s.i := rfl
@[simp] theorem State.advance_sp (s : State) : (s.advance).sp = s.sp := rfl
@[simp] theorem State.advance_stk (s : State) : (s.advance).stk = s.stk := rfl
@[simp] theorem State.advance_mem (s : State) : (s.advance).mem = s.mem := rfl
@[simp] theorem State.advance_disp (s : State) : (s.advance).disp = s.disp := rfl
@[simp] theorem State.advance_key (s : State) : (s.advance).key = s.key := rfl
@[simp] theorem State.advance_dt (s : State) : (s.advance).dt = s.dt := rfl
@[simp] theorem State.advance_st (s : State) : (s.advance).st = s.st := rfl
@[simp] theorem State.advance_block (s : State) : (s.advance).block = s.block := rfl
@[simp] theorem State.advance_ir (s : State) : (s.advance).ir = s.ir := rfl
@[simp] theorem State.advance_fault (s : State) : (s.advance).fault = s.fault := rfl
@[simp] theorem State.advance_faultPc (s : State) : (s.advance).faultPc = s.faultPc := rfl
@[simp] theorem State.advance_faultInfo (s : State) : (s.advance).faultInfo = s.faultInfo := rfl
@[simp] theorem State.advance_draws (s : State) : (s.advance).draws = s.draws := rfl

@[simp] theorem State.advance_pc (s : State) : s.advance.pc = s.pc + 2 := rfl
@[simp] theorem State.advance_getV (s : State) (r : RegIdx) : s.advance.getV r = s.getV r := rfl

/-! ### `setFlag` -/

@[simp] theorem State.setFlag_i (s : State) (f : Bool) : (s.setFlag f).i = s.i := rfl
@[simp] theorem State.setFlag_pc (s : State) (f : Bool) : (s.setFlag f).pc = s.pc := rfl
@[simp] theorem State.setFlag_sp (s : State) (f : Bool) : (s.setFlag f).sp = s.sp := rfl
@[simp] theorem State.setFlag_stk (s : State) (f : Bool) : (s.setFlag f).stk = s.stk := rfl
@[simp] theorem State.setFlag_mem (s : State) (f : Bool) : (s.setFlag f).mem = s.mem := rfl
@[simp] theorem State.setFlag_disp (s : State) (f : Bool) : (s.setFlag f).disp = s.disp := rfl
@[simp] theorem State.setFlag_key (s : State) (f : Bool) : (s.setFlag f).key = s.key := rfl
@[simp] theorem State.setFlag_dt (s : State) (f : Bool) : (s.setFlag f).dt = s.dt := rfl
@[simp] theorem State.setFlag_st (s : State) (f : Bool) : (s.setFlag f).st = s.st := rfl
@[simp] theorem State.setFlag_block (s : State) (f : Bool) : (s.setFlag f).block = s.block := rfl
@[simp] theorem State.setFlag_ir (s : State) (f : Bool) : (s.setFlag f).ir = s.ir := rfl
@[simp] theorem State.setFlag_fault (s : State) (f : Bool) : (s.setFlag f).fault = s.fault := rfl
@[simp] theorem State.setFlag_faultPc (s : State) (f : Bool) : (s.setFlag f).faultPc = s.faultPc := rfl
@[simp] theorem State.setFlag_faultInfo (s : State) (f : Bool) : (s.setFlag f).faultInfo = s.faultInfo := rfl
@[simp] theorem State.setFlag_draws (s : State) (f : Bool) : (s.setFlag f).draws = s.draws := rfl

/-! ### `writeFlagResult` -/

@[simp] theorem State.writeFlagResult_i (s : State) (x : RegIdx) (f : Bool) (r : Byte) : (s.writeFlagResult x f r).i = s.i := rfl
@[simp] theorem State.writeFlagResult_pc (s : State) (x : RegIdx) (f : Bool) (r : Byte) : (s.writeFlagResult x f r).pc = s.pc := rfl
@[simp] theorem State.writeFlagResult_sp (s : State) (x : RegIdx) (f : Bool) (r : Byte) : (s.writeFlagResult x f r).sp = s.sp := rfl
@[simp] theorem State.writeFlagResult_stk (s : State) (x : RegIdx) (f : Bool) (r : Byte) : (s.writeFlagResult x f r).stk = s.stk := rfl
@[simp] theorem State.writeFlagResult_mem (s : State) (x : RegIdx) (f : Bool) (r : Byte) : (s.writeFlagResult x f r).mem = s.mem := rfl
@[simp] theorem State.writeFlagResult_disp (s : State) (x : RegIdx) (f : Bool) (r : Byte) : (s.writeFlagResult x f r).disp = s.disp := rfl
@[simp] theorem State.writeFlagResult_key (s : State) (x : RegIdx) (f : Bool) (r : Byte) : (s.writeFlagResult x f r).key = s.key := rfl
@[simp] theorem State.writeFlagResult_dt (s : State) (x : RegIdx) (f : Bool) (r : Byte) : (s.writeFlagResult x f r).dt = s.dt := rfl
@[simp] theorem State.writeFlagResult_st (s : State) (x : RegIdx) (f : Bool) (r : Byte) : (s.writeFlagResult x f r).st = s.st := rfl
@[simp] theorem State.writeFlagResult_block (s : State) (x : RegIdx) (f : Bool) (r : Byte) : (s.writeFlagResult x f r).block = s.block := rfl
@[simp] theorem State.writeFlagResult_ir (s : State) (x : RegIdx) (f : Bool) (r : Byte) : (s.writeFlagResult x f r).ir = s.ir := rfl
@[simp] theorem State.writeFlagResult_fault (s : State) (x : RegIdx) (f : Bool) (r : Byte) : (s.writeFlagResult x f r).fault = s.fault := rfl
@[simp] theorem State.writeFlagResult_faultPc (s : State) (x : RegIdx) (f : Bool) (r : Byte) : (s.writeFlagResult x f r).faultPc = s.faultPc := rfl
@[simp] theorem State.writeFlagResult_faultInfo (s : State) (x : RegIdx) (f : Bool) (r : Byte) : (s.writeFlagResult x f r).faultInfo = s.faultInfo := rfl
@[simp] theorem State.writeFlagResult_draws (s : State) (x : RegIdx) (f : Bool) (r : Byte) : (s.writeFlagResult x f r).draws = s.draws := rfl

/-! ### `raise` -/

@[simp] theorem State.raise_v (f : Fault) (info : Word) (s : State) : (raise f info s).v = s.v := rfl
@[simp] theorem State.raise_i (f : Fault) (info : Word) (s : State) : (raise f info s).i = s.i := rfl
@[simp] theorem State.raise_pc (f : Fault) (info : Word) (s : State) : (raise f info s).pc = s.pc := rfl
@[simp] theorem State.raise_sp (f : Fault) (info : Word) (s : State) : (raise f info s).sp = s.sp := rfl
@[simp] theorem State.raise_stk (f : Fault) (info : Word) (s : State) : (raise f info s).stk = s.stk := rfl
@[simp] theorem State.raise_mem (f : Fault) (info : Word) (s : State) : (raise f info s).mem = s.mem := rfl
@[simp] theorem State.raise_disp (f : Fault) (info : Word) (s : State) : (raise f info s).disp = s.disp := rfl
@[simp] theorem State.raise_key (f : Fault) (info : Word) (s : State) : (raise f info s).key = s.key := rfl
@[simp] theorem State.raise_dt (f : Fault) (info : Word) (s : State) : (raise f info s).dt = s.dt := rfl
@[simp] theorem State.raise_st (f : Fault) (info : Word) (s : State) : (raise f info s).st = s.st := rfl
@[simp] theorem State.raise_block (f : Fault) (info : Word) (s : State) : (raise f info s).block = s.block := rfl
@[simp] theorem State.raise_ir (f : Fault) (info : Word) (s : State) : (raise f info s).ir = s.ir := rfl
@[simp] theorem State.raise_draws (f : Fault) (info : Word) (s : State) : (raise f info s).draws = s.draws := rfl

@[simp] theorem State.raise_fault (f : Fault) (info : Word) (s : State) : (raise f info s).fault = f.code := rfl
@[simp] theorem State.raise_faultPc (f : Fault) (info : Word) (s : State) : (raise f info s).faultPc = s.pc := rfl
@[simp] theorem State.raise_faultInfo (f : Fault) (info : Word) (s : State) : (raise f info s).faultInfo = info := rfl
@[simp] theorem State.raise_getV (f : Fault) (info : Word) (s : State) (r : RegIdx) :
    (raise f info s).getV r = s.getV r := rfl

/-! ### `drawByte` -/

@[simp] theorem State.drawByte_v (s : State) : (s.drawByte.2).v = s.v := rfl
@[simp] theorem State.drawByte_i (s : State) : (s.drawByte.2).i = s.i := rfl
@[simp] theorem State.drawByte_pc (s : State) : (s.drawByte.2).pc = s.pc := rfl
@[simp] theorem State.drawByte_sp (s : State) : (s.drawByte.2).sp = s.sp := rfl
@[simp] theorem State.drawByte_stk (s : State) : (s.drawByte.2).stk = s.stk := rfl
@[simp] theorem State.drawByte_mem (s : State) : (s.drawByte.2).mem = s.mem := rfl
@[simp] theorem State.drawByte_disp (s : State) : (s.drawByte.2).disp = s.disp := rfl
@[simp] theorem State.drawByte_key (s : State) : (s.drawByte.2).key = s.key := rfl
@[simp] theorem State.drawByte_dt (s : State) : (s.drawByte.2).dt = s.dt := rfl
@[simp] theorem State.drawByte_st (s : State) : (s.drawByte.2).st = s.st := rfl
@[simp] theorem State.drawByte_block (s : State) : (s.drawByte.2).block = s.block := rfl
@[simp] theorem State.drawByte_ir (s : State) : (s.drawByte.2).ir = s.ir := rfl
@[simp] theorem State.drawByte_fault (s : State) : (s.drawByte.2).fault = s.fault := rfl
@[simp] theorem State.drawByte_faultPc (s : State) : (s.drawByte.2).faultPc = s.faultPc := rfl
@[simp] theorem State.drawByte_faultInfo (s : State) : (s.drawByte.2).faultInfo = s.faultInfo := rfl

@[simp] theorem State.drawByte_draws (s : State) : s.drawByte.2.draws = s.draws + 1 := rfl
@[simp] theorem State.drawByte_getV (s : State) (r : RegIdx) : s.drawByte.2.getV r = s.getV r := rfl

/-! ### `skipIf` -/

@[simp] theorem State.skipIf_v (s : State) (c : Bool) : (s.skipIf c).v = s.v := by
  unfold State.skipIf; split <;> rfl
@[simp] theorem State.skipIf_i (s : State) (c : Bool) : (s.skipIf c).i = s.i := by
  unfold State.skipIf; split <;> rfl
@[simp] theorem State.skipIf_sp (s : State) (c : Bool) : (s.skipIf c).sp = s.sp := by
  unfold State.skipIf; split <;> rfl
@[simp] theorem State.skipIf_stk (s : State) (c : Bool) : (s.skipIf c).stk = s.stk := by
  unfold State.skipIf; split <;> rfl
@[simp] theorem State.skipIf_mem (s : State) (c : Bool) : (s.skipIf c).mem = s.mem := by
  unfold State.skipIf; split <;> rfl
@[simp] theorem State.skipIf_disp (s : State) (c : Bool) : (s.skipIf c).disp = s.disp := by
  unfold State.skipIf; split <;> rfl
@[simp] theorem State.skipIf_key (s : State) (c : Bool) : (s.skipIf c).key = s.key := by
  unfold State.skipIf; split <;> rfl
@[simp] theorem State.skipIf_dt (s : State) (c : Bool) : (s.skipIf c).dt = s.dt := by
  unfold State.skipIf; split <;> rfl
@[simp] theorem State.skipIf_st (s : State) (c : Bool) : (s.skipIf c).st = s.st := by
  unfold State.skipIf; split <;> rfl
@[simp] theorem State.skipIf_block (s : State) (c : Bool) : (s.skipIf c).block = s.block := by
  unfold State.skipIf; split <;> rfl
@[simp] theorem State.skipIf_ir (s : State) (c : Bool) : (s.skipIf c).ir = s.ir := by
  unfold State.skipIf; split <;> rfl
@[simp] theorem State.skipIf_fault (s : State) (c : Bool) : (s.skipIf c).fault = s.fault := by
  unfold State.skipIf; split <;> rfl
@[simp] theorem State.skipIf_faultPc (s : State) (c : Bool) : (s.skipIf c).faultPc = s.faultPc := by
  unfold State.skipIf; split <;> rfl
@[simp] theorem State.skipIf_faultInfo (s : State) (c : Bool) : (s.skipIf c).faultInfo = s.faultInfo := by
  unfold State.skipIf; split <;> rfl
@[simp] theorem State.skipIf_draws (s : State) (c : Bool) : (s.skipIf c).draws = s.draws := by
  unfold State.skipIf; split <;> rfl

@[simp] theorem State.skipIf_getV (s : State) (c : Bool) (r : RegIdx) : (s.skipIf c).getV r = s.getV r := by
  unfold State.skipIf; split <;> rfl

theorem State.skipIf_pc (s : State) (c : Bool) : (s.skipIf c).pc = if c then s.pc + 2 else s.pc := by
  unfold State.skipIf; split <;> rfl

/-! ### `latchIr` -/

@[simp] theorem State.latchIr_v (w : Word) (s : State) : (s.latchIr w).v = s.v := by
  unfold State.latchIr; split <;> rfl
@[simp] theorem State.latchIr_i (w : Word) (s : State) : (s.latchIr w).i = s.i := by
  unfold State.latchIr; split <;> rfl
@[simp] theorem State.latchIr_pc (w : Word) (s : State) : (s.latchIr w).pc = s.pc := by
  unfold State.latchIr; split <;> rfl
@[simp] theorem State.latchIr_sp (w : Word) (s : State) : (s.latchIr w).sp = s.sp := by
  unfold State.latchIr; split <;> rfl
@[simp] theorem State.latchIr_stk (w : Word) (s : State) : (s.latchIr w).stk = s.stk := by
  unfold State.latchIr; split <;> rfl
@[simp] theorem State.latchIr_mem (w : Word) (s : State) : (s.latchIr w).mem = s.mem := by
  unfold State.latchIr; split <;> rfl
@[simp] theorem State.latchIr_disp (w : Word) (s : State) : (s.latchIr w).disp = s.disp := by
  unfold State.latchIr; split <;> rfl
@[simp] theorem State.latchIr_key (w : Word) (s : State) : (s.latchIr w).key = s.key := by
  unfold State.latchIr; split <;> rfl
@[simp] theorem State.latchIr_dt (w : Word) (s : State) : (s.latchIr w).dt = s.dt := by
  unfold State.latchIr; split <;> rfl
@[simp] theorem State.latchIr_st (w : Word) (s : State) : (s.latchIr w).st = s.st := by
  unfold State.latchIr; split <;> rfl
@[simp] theorem State.latchIr_block (w : Word) (s : State) : (s.latchIr w).block = s.block := by
  unfold State.latchIr; split <;> rfl
@[simp] theorem State.latchIr_fault (w : Word) (s : State) : (s.latchIr w).fault = s.fault := by
  unfold State.latchIr; split <;> rfl
@[simp] theorem State.latchIr_faultPc (w : Word) (s : State) : (s.latchIr w).faultPc = s.faultPc := by
  unfold State.latchIr; split <;> rfl
@[simp] theorem State.latchIr_faultInfo (w : Word) (s : State) : (s.latchIr w).faultInfo = s.faultInfo := by
  unfold State.latchIr; split <;> rfl
@[simp] theorem State.latchIr_draws (w : Word) (s : State) : (s.latchIr w).draws = s.draws := by
  unfold State.latchIr; split <;> rfl

@[simp] theorem State.latchIr_getV (w : Word) (s : State) (r : RegIdx) : (s.latchIr w).getV r = s.getV r := by
  unfold State.latchIr; split <;> rfl

theorem State.latchIr_ir (w : Word) (s : State) : (s.latchIr w).ir = if s.fault = 0 then w else s.ir := by
  unfold State.latchIr; split <;> rfl

/-! ### `waitKey` -/

@[simp] theorem State.waitKey_i (s : State) (x : RegIdx) : (s.waitKey x).i = s.i := by
  unfold State.waitKey; split <;> rfl
@[simp] theorem State.waitKey_pc (s : State) (x : RegIdx) : (s.waitKey x).pc = s.pc := by
  unfold State.waitKey; split <;> rfl
@[simp] theorem State.waitKey_sp (s : State) (x : RegIdx) : (s.waitKey x).sp = s.sp := by
  unfold State.waitKey; split <;> rfl
@[simp] theorem State.waitKey_stk (s : State) (x : RegIdx) : (s.waitKey x).stk = s.stk := by
  unfold State.waitKey; split <;> rfl
@[simp] theorem State.waitKey_mem (s : State) (x : RegIdx) : (s.waitKey x).mem = s.mem := by
  unfold State.waitKey; split <;> rfl
@[simp] theorem State.waitKey_disp (s : State) (x : RegIdx) : (s.waitKey x).disp = s.disp := by
  unfold State.waitKey; split <;> rfl
@[simp] theorem State.waitKey_key (s : State) (x : RegIdx) : (s.waitKey x).key = s.key := by
  unfold State.waitKey; split <;> rfl
@[simp] theorem State.waitKey_dt (s : State) (x : RegIdx) : (s.waitKey x).dt = s.dt := by
  unfold State.waitKey; split <;> rfl
@[simp] theorem State.waitKey_st (s : State) (x : RegIdx) : (s.waitKey x).st = s.st := by
  unfold State.waitKey; split <;> rfl
@[simp] theorem State.waitKey_ir (s : State) (x : RegIdx) : (s.waitKey x).ir = s.ir := by
  unfold State.waitKey; split <;> rfl
@[simp] theorem State.waitKey_fault (s : State) (x : RegIdx) : (s.waitKey x).fault = s.fault := by
  unfold State.waitKey; split <;> rfl
@[simp] theorem State.waitKey_faultPc (s : State) (x : RegIdx) : (s.waitKey x).faultPc = s.faultPc := by
  unfold State.waitKey; split <;> rfl
@[simp] theorem State.waitKey_faultInfo (s : State) (x : RegIdx) : (s.waitKey x).faultInfo = s.faultInfo := by
  unfold State.waitKey; split <;> rfl
@[simp] theorem State.waitKey_draws (s : State) (x : RegIdx) : (s.waitKey x).draws = s.draws := by
  unfold State.waitKey; split <;> rfl

/-! ### `tick` -/

@[simp] theorem State.tick_v (s : State) : (tick s).v = s.v := rfl
@[simp] theorem State.tick_i (s : State) : (tick s).i = s.i := rfl
@[simp] theorem State.tick_pc (s : State) : (tick s).pc = s.pc := rfl
@[simp] theorem State.tick_sp (s : State) : (tick s).sp = s.sp := rfl
@[simp] theorem State.tick_stk (s : State) : (tick s).stk = s.stk := rfl
@[simp] theorem State.tick_mem (s : State) : (tick s).mem = s.mem := rfl
@[simp] theorem State.tick_disp (s : State) : (tick s).disp = s.disp := rfl
@[simp] theorem State.tick_key (s : State) : (tick s).key = s.key := rfl
@[simp] theorem State.tick_block (s : State) : (tick s).block = s.block := rfl
@[simp] theorem State.tick_ir (s : State) : (tick s).ir = s.ir := rfl
@[simp] theorem State.tick_fault (s : State) : (tick s).fault = s.fault := rfl
@[simp] theorem State.tick_faultPc (s : State) : (tick s).faultPc = s.faultPc := rfl
@[simp] theorem State.tick_faultInfo (s : State) : (tick s).faultInfo = s.faultInfo := rfl
@[simp] theorem State.tick_draws (s : State) : (tick s).draws = s.draws := rfl

@[simp] theorem State.tick_getV (s : State) (r : RegIdx) : (tick s).getV r = s.getV r := rfl

/-! ### `setKey` -/

@[simp] theorem State.setKey_v (k : Fin 16) (p : Bool) (s : State) : (setKey k p s).v = s.v := rfl
@[simp] theorem State.setKey_i (k : Fin 16) (p : Bool) (s : State) : (setKey k p s).i = s.i := rfl
@[simp] theorem State.setKey_pc (k : Fin 16) (p : Bool) (s : State) : (setKey k p s).pc = s.pc := rfl
@[simp] theorem State.setKey_sp (k : Fin 16) (p : Bool) (s : State) : (setKey k p s).sp = s.sp := rfl
@[simp] theorem State.setKey_stk (k : Fin 16) (p : Bool) (s : State) : (setKey k p s).stk = s.stk := rfl
@[simp] theorem State.setKey_mem (k : Fin 16) (p : Bool) (s : State) : (setKey k p s).mem = s.mem := rfl
@[simp] theorem State.setKey_disp (k : Fin 16) (p : Bool) (s : State) : (setKey k p s).disp = s.disp := rfl
@[simp] theorem State.setKey_dt (k : Fin 16) (p : Bool) (s : State) : (setKey k p s).dt = s.dt := rfl
@[simp] theorem State.setKey_st (k : Fin 16) (p : Bool) (s : State) : (setKey k p s).st = s.st := rfl
@[simp] theorem State.setKey_block (k : Fin 16) (p : Bool) (s : State) : (setKey k p s).block = s.block := rfl
@[simp] theorem State.setKey_ir (k : Fin 16) (p : Bool) (s : State) : (setKey k p s).ir = s.ir := rfl
@[simp] theorem State.setKey_fault (k : Fin 16) (p : Bool) (s : State) : (setKey k p s).fault = s.fault := rfl
@[simp] theorem State.setKey_faultPc (k : Fin 16) (p : Bool) (s : State) : (setKey k p s).faultPc = s.faultPc := rfl
@[simp] theorem State.setKey_faultInfo (k : Fin 16) (p : Bool) (s : State) : (setKey k p s).faultInfo = s.faultInfo := rfl
@[simp] theorem State.setKey_draws (k : Fin 16) (p : Bool) (s : State) : (setKey k p s).draws = s.draws := rfl

@[simp] theorem State.setKey_getV (k : Fin 16) (p : Bool) (s : State) (r : RegIdx) : (setKey k p s).getV r = s.getV r := rfl

end Sys2Proof.Machine
end

