-- ==== Sys2Proof/Laws/Display.lean ====
section
/-! SUPPORT. The laws of the display, and what composing one pixel and one row of a sprite does (44_display R171). -/

namespace Sys2Proof.Machine

/-- Read after a write to a pixel that exists. -/
theorem Display.get_put (d : Display) (r c : Nat) (b : Bool) (hr : r < 32) (hc : c < 64) (r' c' : Nat) :
    (d.put r c b).get r' c' = if r' = r ∧ c' = c then b else d.get r' c' := by
  unfold Display.put Display.get
  simp only [dif_pos (And.intro hr hc)]
  by_cases h' : r' < 32 ∧ c' < 64
  · rw [dif_pos h', dif_pos h']
    by_cases h1 : r = r'
    · subst h1
      by_cases h2 : c = c'
      · subst h2; simp
      · have : ¬ (c' = c) := fun e => h2 e.symm
        simp [Vector.getElem_set_ne, h2, this]
    · have : ¬ (r' = r) := fun e => h1 e.symm
      simp [Vector.getElem_set_ne, h1, this]
  · rw [dif_neg h', dif_neg h', if_neg (by omega)]

@[simp] theorem Display.get_clear (r c : Nat) : Display.clear.get r c = false := by
  unfold Display.get Display.clear
  split <;> simp

/-- Two displays that agree on every pixel are the same display. -/
theorem Display.ext_get (d d' : Display) (h : ∀ r c, r < 32 → c < 64 → d.get r c = d'.get r c) : d = d' := by
  apply Vector.ext
  intro r hr
  apply Vector.ext
  intro c hc
  have := h r c hr hc
  simpa [Display.get, hr, hc] using this

/-- One sprite bit: the pixel it falls on is xored, if it is on the display, and no other pixel changes. -/
theorem blendBit_get (r x0 : Nat) (row : Byte) (p : Display × Bool) (k : Nat) (hr : r < 32) (r' c' : Nat) :
    (blendBit r x0 row p k).1.get r' c' =
      if r' = r ∧ c' = x0 + k ∧ c' < 64 then (p.1.get r' c' != row.getLsbD (7 - k)) else p.1.get r' c' := by
  unfold blendBit
  split
  · next h => rw [if_neg (by omega)]
  · next h =>
    simp only
    rw [Display.get_put _ _ _ _ hr (by omega)]
    by_cases h1 : r' = r ∧ c' = x0 + k
    · rw [if_pos h1, if_pos ⟨h1.1, h1.2, by omega⟩, h1.1, h1.2]
    · rw [if_neg h1, if_neg (by tauto)]

/-- One sprite bit: it collides when its pixel is on the display and set, and the bit is set. -/
theorem blendBit_hit (r x0 : Nat) (row : Byte) (p : Display × Bool) (k : Nat) :
    (blendBit r x0 row p k).2 = (p.2 || (decide (x0 + k < 64) && p.1.get r (x0 + k) && row.getLsbD (7 - k))) := by
  unfold blendBit
  split
  · next h => simp [show ¬ (x0 + k < 64) by omega]
  · next h => simp [show x0 + k < 64 by omega]

/-! ### One sprite row -/

/-- The first `n` bits of a sprite row: which pixels they change. -/
theorem blendBits_get (r x0 : Nat) (row : Byte) (p : Display × Bool) (hr : r < 32) (r' c' : Nat) : ∀ n : Nat,
    ((List.range n).foldl (blendBit r x0 row) p).1.get r' c' =
      if r' = r ∧ x0 ≤ c' ∧ c' < x0 + n ∧ c' < 64 then (p.1.get r' c' != row.getLsbD (7 - (c' - x0)))
      else p.1.get r' c' := by
  intro n
  induction n with
  | zero => rw [if_neg (by omega)]; rfl
  | succ n ih =>
    rw [List.range_succ, List.foldl_append, List.foldl_cons, List.foldl_nil, blendBit_get _ _ _ _ _ hr, ih]
    by_cases h1 : r' = r ∧ c' = x0 + n ∧ c' < 64
    · rw [if_pos h1, if_neg (by omega), if_pos (by omega), show c' - x0 = n by omega]
    · rw [if_neg h1]
      by_cases h2 : r' = r ∧ x0 ≤ c' ∧ c' < x0 + n ∧ c' < 64
      · rw [if_pos h2, if_pos (by omega)]
      · rw [if_neg h2, if_neg (by omega)]

/-- The first `n` bits of a sprite row: when they collide. -/
theorem blendBits_hit (r x0 : Nat) (row : Byte) (p : Display × Bool) (hr : r < 32) : ∀ n : Nat,
    (((List.range n).foldl (blendBit r x0 row) p).2 = true ↔ p.2 = true ∨
      ∃ c, x0 ≤ c ∧ c < x0 + n ∧ c < 64 ∧ p.1.get r c = true ∧ row.getLsbD (7 - (c - x0)) = true) := by
  intro n
  induction n with
  | zero =>
    simp only [List.range_zero, List.foldl_nil]
    exact ⟨.inl, fun h => h.elim id fun ⟨c, h1, h2, _⟩ => absurd h1 (by omega)⟩
  | succ n ih =>
    rw [List.range_succ, List.foldl_append, List.foldl_cons, List.foldl_nil, blendBit_hit, Bool.or_eq_true, ih,
      blendBits_get _ _ _ _ hr, if_neg (by omega)]
    simp only [Bool.and_eq_true, decide_eq_true_eq]
    constructor
    · rintro ((h | ⟨c, h1, h2, h3⟩) | ⟨⟨h1, h2⟩, h3⟩)
      · exact .inl h
      · exact .inr ⟨c, h1, by omega, h3⟩
      · exact .inr ⟨x0 + n, by omega, by omega, h1, h2, by rwa [show x0 + n - x0 = n by omega]⟩
    · rintro (h | ⟨c, h1, h2, h3, h4, h5⟩)
      · exact .inl (.inl h)
      · by_cases hc : c = x0 + n
        · subst hc
          exact .inr ⟨⟨h3, h4⟩, by rwa [show x0 + n - x0 = n by omega] at h5⟩
        · exact .inl (.inr ⟨c, h1, by omega, h3, h4, h5⟩)

/-- One sprite row: which pixels it changes. -/
theorem blendRow_get (r x0 : Nat) (row : Byte) (p : Display × Bool) (r' c' : Nat) :
    (blendRow r x0 row p).1.get r' c' =
      if r' = r ∧ r' < 32 ∧ x0 ≤ c' ∧ c' < x0 + 8 ∧ c' < 64 then (p.1.get r' c' != row.getLsbD (7 - (c' - x0)))
      else p.1.get r' c' := by
  unfold blendRow
  split
  · rw [if_neg (by omega)]
  · next h =>
    rw [blendBits_get _ _ _ _ (by omega)]
    by_cases h1 : r' = r ∧ x0 ≤ c' ∧ c' < x0 + 8 ∧ c' < 64
    · rw [if_pos h1, if_pos (by omega)]
    · rw [if_neg h1, if_neg (by omega)]

/-- One sprite row: when it collides. -/
theorem blendRow_hit (r x0 : Nat) (row : Byte) (p : Display × Bool) :
    ((blendRow r x0 row p).2 = true ↔ p.2 = true ∨
      ∃ c, r < 32 ∧ x0 ≤ c ∧ c < x0 + 8 ∧ c < 64 ∧ p.1.get r c = true ∧ row.getLsbD (7 - (c - x0)) = true) := by
  unfold blendRow
  split
  · exact ⟨.inl, fun h => h.elim id fun ⟨c, h1, _⟩ => absurd h1 (by omega)⟩
  · next h =>
    rw [blendBits_hit _ _ _ _ (by omega)]
    constructor
    · rintro (h | ⟨c, hc⟩)
      · exact .inl h
      · exact .inr ⟨c, by omega, hc⟩
    · rintro (h | ⟨c, _, hc⟩)
      · exact .inl h
      · exact .inr ⟨c, hc⟩

/-! ### A whole sprite (44_display R171) -/

/-- A run of sprite rows: which pixels it changes. -/
theorem blendRows_get (x0 : Nat) (rows : List Byte) : ∀ (r : Nat) (p : Display × Bool) (r' c' : Nat),
    (blendRows r x0 rows p).1.get r' c' =
      if r' < 32 ∧ c' < 64 ∧ r ≤ r' ∧ r' < r + rows.length ∧ x0 ≤ c' ∧ c' < x0 + 8
      then (p.1.get r' c' != (rows.getD (r' - r) 0).getLsbD (7 - (c' - x0))) else p.1.get r' c' := by
  induction rows with
  | nil => intro r p r' c'; rw [if_neg (by simp; omega)]; rfl
  | cons b bs ih =>
    intro r p r' c'
    rw [blendRows, ih, blendRow_get]
    simp only [List.length_cons]
    by_cases h0 : r' = r
    · subst h0
      rw [if_neg (by omega)]
      by_cases h1 : r' < 32 ∧ x0 ≤ c' ∧ c' < x0 + 8 ∧ c' < 64
      · rw [if_pos (by omega), if_pos (by omega)]; simp
      · rw [if_neg (by omega), if_neg (by omega)]
    · rw [if_neg (show ¬ (r' = r ∧ _) from fun h => h0 h.1)]
      by_cases h1 : r' < 32 ∧ c' < 64 ∧ r + 1 ≤ r' ∧ r' < r + 1 + bs.length ∧ x0 ≤ c' ∧ c' < x0 + 8
      · rw [if_pos h1, if_pos (by omega)]
        rw [show r' - r = (r' - (r+1)) + 1 by omega, List.getD_cons_succ]
      · rw [if_neg h1, if_neg (by omega)]

/-- A run of sprite rows: when it collides. -/
theorem blendRows_hit (x0 : Nat) (rows : List Byte) : ∀ (r : Nat) (p : Display × Bool),
    ((blendRows r x0 rows p).2 = true ↔ p.2 = true ∨
      ∃ r' c, r' < 32 ∧ c < 64 ∧ r ≤ r' ∧ r' < r + rows.length ∧ x0 ≤ c ∧ c < x0 + 8 ∧
        p.1.get r' c = true ∧ (rows.getD (r' - r) 0).getLsbD (7 - (c - x0)) = true) := by
  induction rows with
  | nil => intro r p; simp only [blendRows]; exact ⟨.inl, fun h => h.elim id fun ⟨r', c, h⟩ => by simp at h⟩
  | cons b bs ih =>
    intro r p
    rw [blendRows, ih, blendRow_hit]
    simp only [List.length_cons]
    constructor
    · rintro ((h | ⟨c, h1, h2, h3, h4, h5, h6⟩) | ⟨r', c, h1, h2, h3, h4, h5, h6, h7, h8⟩)
      · exact .inl h
      · exact .inr ⟨r, c, h1, h4, by omega, by omega, h2, h3, h5, by simpa using h6⟩
      · rw [blendRow_get, if_neg (by omega)] at h7
        refine .inr ⟨r', c, h1, h2, by omega, by omega, h5, h6, h7, ?_⟩
        rw [show r' - r = (r' - (r+1)) + 1 by omega, List.getD_cons_succ]; exact h8
    · rintro (h | ⟨r', c, h1, h2, h3, h4, h5, h6, h7, h8⟩)
      · exact .inl (.inl h)
      · by_cases h0 : r' = r
        · subst h0
          exact .inl (.inr ⟨c, h1, h5, h6, h2, h7, by simpa using h8⟩)
        · refine .inr ⟨r', c, h1, h2, by omega, by omega, h5, h6, ?_, ?_⟩
          · rw [blendRow_get, if_neg (by omega)]; exact h7
          · rw [show r' - r = (r' - (r+1)) + 1 by omega, List.getD_cons_succ] at h8; exact h8

end Sys2Proof.Machine
end

