-- ==== Sys2Proof/Laws/Memory.lean ====
section
/-! SUPPORT. The laws of memory: a read after a write, and that every memory operation keeps the canonical form. -/

namespace Sys2Proof.Machine

@[simp] theorem Memory.read_nil (a : Nat) : Memory.read [] a = resetByte a := rfl

theorem Memory.read_drop (a a' : Nat) (m : Memory) :
    (Memory.drop a m).read a' = if a' = a then resetByte a else m.read a' := by
  induction m with
  | nil => by_cases h : a' = a <;> simp [Memory.drop, h]
  | cons e m ih =>
    obtain ⟨k, c⟩ := e
    rw [Memory.drop]
    split
    · next hk =>
      rw [ih]
      split
      · rfl
      · next h => rw [Memory.read, if_neg (fun e => h (e.trans hk))]
    · next hk =>
      rw [Memory.read, Memory.read, ih]
      by_cases h : a' = a
      · rw [if_pos h, if_pos h, if_neg (fun e => hk (e.symm.trans h))]
      · rw [if_neg h, if_neg h]

theorem Memory.read_insert (a : Nat) (b : Byte) (a' : Nat) (m : Memory) (h : ∀ e ∈ m, e.1 ≠ a) :
    (Memory.insert a b m).read a' = if a' = a then b else m.read a' := by
  induction m with
  | nil => rfl
  | cons e m ih =>
    obtain ⟨k, c⟩ := e
    have hk : k ≠ a := h (k, c) (List.mem_cons_self ..)
    have ih := ih fun e he => h e (List.mem_cons_of_mem _ he)
    rw [Memory.insert]
    split
    · rw [Memory.read]
    · rw [Memory.read, Memory.read, ih]
      by_cases h' : a' = a
      · rw [if_pos h', if_pos h', if_neg (fun e => hk (e.symm.trans h'))]
      · rw [if_neg h', if_neg h']

theorem Memory.drop_ne (a : Nat) (m : Memory) : ∀ e ∈ Memory.drop a m, e.1 ≠ a := by
  induction m with
  | nil => intro e he; cases he
  | cons e m ih =>
    obtain ⟨k, c⟩ := e
    rw [Memory.drop]
    split
    · exact ih
    · next hk =>
      intro e he
      rcases List.mem_cons.mp he with rfl | he
      · exact hk
      · exact ih e he

/-- Read after `put`, for every address and every list. -/
theorem Memory.read_put (a : Nat) (b : Byte) (m : Memory) (a' : Nat) :
    (Memory.put a b m).read a' = if a' = a then b else m.read a' := by
  unfold Memory.put
  split
  · next h => rw [Memory.read_drop, h]
  · rw [Memory.read_insert a b a' _ (Memory.drop_ne a m), Memory.read_drop]
    split <;> simp_all

/-- Read after a write to a cell that exists. -/
theorem Memory.read_write (m : Memory) (a : Nat) (b : Byte) (ha : a < 0x1000) (a' : Nat) :
    (m.write a b).read a' = if a' = a then b else m.read a' := by
  simp [Memory.write, ha, Memory.read_put]

/-- A write leaves every other address as it was. -/
theorem Memory.read_write_ne (m : Memory) {a a' : Nat} (b : Byte) (h : a' ≠ a) :
    (m.write a b).read a' = m.read a' := by
  unfold Memory.write
  split
  · rw [Memory.read_put, if_neg h]
  · rfl

/-- Read after a run of writes: the bytes written, in rising order, and everything else as it was. -/
theorem Memory.read_writeList (bs : List Byte) : ∀ (m : Memory) (a a' : Nat), a + bs.length ≤ 0x1000 →
    (m.writeList a bs).read a' = if a ≤ a' ∧ a' < a + bs.length then bs.getD (a' - a) 0 else m.read a' := by
  induction bs with
  | nil => intro m a a' _; rw [if_neg (by simp)]; rfl
  | cons b bs ih =>
    intro m a a' h
    simp only [List.length_cons] at h ⊢
    rw [Memory.writeList, ih _ _ _ (by omega), Memory.read_write _ _ _ (by omega)]
    by_cases h0 : a' = a
    · subst h0; rw [if_neg (by omega), if_pos rfl, if_pos (by omega)]; simp
    · by_cases h1 : a + 1 ≤ a' ∧ a' < a + 1 + bs.length
      · rw [if_pos h1, if_pos (by omega)]
        obtain ⟨d, hd⟩ : ∃ d, a' - a = d + 1 := ⟨a' - a - 1, by omega⟩
        have : a' - (a + 1) = d := by omega
        simp [hd, this]
      · rw [if_neg h1, if_neg h0, if_neg (by omega)]

/-- A run of writes leaves every address outside it as it was, wherever it lies. -/
theorem Memory.read_writeList_outside (bs : List Byte) : ∀ (m : Memory) (a a' : Nat),
    ¬ (a ≤ a' ∧ a' < a + bs.length) → (m.writeList a bs).read a' = m.read a' := by
  induction bs with
  | nil => intros; rfl
  | cons b bs ih =>
    intro m a a' h
    simp only [List.length_cons] at h
    rw [Memory.writeList, ih _ _ _ (by omega), Memory.read_write_ne _ _ (by omega)]

theorem Memory.readList_getElem (m : Memory) : ∀ (n a k : Nat) (h : k < (m.readList a n).length),
    (m.readList a n)[k] = m.read (a + k) := by
  intro n
  induction n with
  | zero => intro a k h; simp [Memory.readList] at h
  | succ n ih =>
    intro a k h
    cases k with
    | zero => rfl
    | succ k => simp only [Memory.readList, List.getElem_cons_succ]; rw [ih]; congr 1; omega

@[simp] theorem Memory.readList_length (m : Memory) : ∀ n a : Nat, (m.readList a n).length = n := by
  intro n
  induction n with
  | zero => intro a; rfl
  | succ n ih => intro a; simp [Memory.readList, ih]

/-- What the `k`-th byte of a run of reads is. -/
theorem Memory.readList_getD (m : Memory) (a n k : Nat) (h : k < n) : (m.readList a n).getD k 0 = m.read (a + k) := by
  rw [List.getD_eq_getElem _ _ (by simpa using h), Memory.readList_getElem]

/-! ### The canonical form -/

theorem Memory.wfFrom_cons {lo k : Nat} {c : Byte} {m : Memory} :
    Memory.wfFrom lo ((k, c) :: m) = true ↔
      lo ≤ k ∧ k < 0x1000 ∧ c ≠ resetByte k ∧ Memory.wfFrom (k + 1) m = true := by
  simp [Memory.wfFrom, and_assoc]

theorem Memory.wfFrom_le {lo lo' : Nat} (h : lo' ≤ lo) {m : Memory} (hm : Memory.wfFrom lo m = true) :
    Memory.wfFrom lo' m = true := by
  cases m with
  | nil => rfl
  | cons e m => rw [Memory.wfFrom_cons] at hm ⊢; exact ⟨by omega, hm.2⟩

/-- Below its first address a canonical list reads as the reset contents. -/
theorem Memory.read_below (m : Memory) : ∀ {lo a : Nat}, Memory.wfFrom lo m = true → a < lo → m.read a = resetByte a := by
  induction m with
  | nil => intros; rfl
  | cons e m ih =>
    obtain ⟨k, c⟩ := e
    intro lo a hm ha
    rw [Memory.wfFrom_cons] at hm
    rw [Memory.read, if_neg (by omega), ih hm.2.2.2 (by omega)]

theorem Memory.wfFrom_drop (a : Nat) (m : Memory) : ∀ {lo : Nat}, Memory.wfFrom lo m = true →
    Memory.wfFrom lo (Memory.drop a m) = true := by
  induction m with
  | nil => intros; rfl
  | cons e m ih =>
    obtain ⟨k, c⟩ := e
    intro lo hm
    rw [Memory.wfFrom_cons] at hm
    rw [Memory.drop]
    split
    · exact Memory.wfFrom_le (by omega) (ih hm.2.2.2)
    · rw [Memory.wfFrom_cons]; exact ⟨hm.1, hm.2.1, hm.2.2.1, ih hm.2.2.2⟩

theorem Memory.wfFrom_insert (a : Nat) (b : Byte) (ha : a < 0x1000) (hb : b ≠ resetByte a) (m : Memory) :
    ∀ {lo : Nat}, lo ≤ a → Memory.wfFrom lo m = true → (∀ e ∈ m, e.1 ≠ a) →
      Memory.wfFrom lo (Memory.insert a b m) = true := by
  induction m with
  | nil => intro lo hlo _ _; rw [Memory.insert, Memory.wfFrom_cons]; exact ⟨hlo, ha, hb, rfl⟩
  | cons e m ih =>
    obtain ⟨k, c⟩ := e
    intro lo hlo hm hne
    have hk : k ≠ a := hne (k, c) (by simp)
    rw [Memory.insert]
    rw [Memory.wfFrom_cons] at hm
    split
    · rw [Memory.wfFrom_cons, Memory.wfFrom_cons]
      exact ⟨hlo, ha, hb, by omega, hm.2⟩
    · rw [Memory.wfFrom_cons]
      exact ⟨hm.1, hm.2.1, hm.2.2.1, ih (by omega) hm.2.2.2 fun e he => hne e (by simp [he])⟩

/-- A write keeps the canonical form. -/
theorem Memory.wf_write (m : Memory) (a : Nat) (b : Byte) (h : m.wf = true) : (m.write a b).wf = true := by
  unfold Memory.write
  split
  · next ha =>
    unfold Memory.put
    split
    · exact Memory.wfFrom_drop a m h
    · next hb => exact Memory.wfFrom_insert a b ha hb _ (Nat.zero_le a) (Memory.wfFrom_drop a m h) (Memory.drop_ne a m)
  · exact h

/-- A run of writes keeps the canonical form. -/
theorem Memory.wf_writeList (bs : List Byte) : ∀ (m : Memory) (a : Nat), m.wf = true → (m.writeList a bs).wf = true := by
  induction bs with
  | nil => intro m a h; exact h
  | cons b bs ih => intro m a h; exact ih _ _ (Memory.wf_write m a b h)

theorem State.reset_mem_wf : State.reset.mem.wf = true := rfl

end Sys2Proof.Machine
end

