-- ==== Sys2Proof/Laws/Registers.lean ====
section
/-! SUPPORT. Register reads after register writes: what `setV`, `setFlag` and `writeFlagResult` do to the register file, and the
block load. -/

namespace Sys2Proof.Machine

@[simp] theorem State.getV_setV_same (s : State) (x : RegIdx) (b : Byte) : (s.setV x b).getV x = b := by
  simp [State.getV, State.setV]

theorem State.getV_setV_ne (s : State) {x r : RegIdx} (b : Byte) (h : r ≠ x) : (s.setV x b).getV r = s.getV r := by
  have : x.toNat ≠ r.toNat := fun e => h (BitVec.eq_of_toNat_eq e.symm)
  simp [State.getV, State.setV, Vector.getElem_set_ne, this]

/-- What `setV` does to every register. -/
theorem State.getV_setV (s : State) (x r : RegIdx) (b : Byte) :
    (s.setV x b).getV r = if r = x then b else s.getV r := by
  split
  · next h => subst h; simp
  · next h => exact State.getV_setV_ne s b h

/-- What `setFlag` does to every register. -/
theorem State.getV_setFlag (s : State) (f : Bool) (r : RegIdx) :
    (s.setFlag f).getV r = if r = 15 then flagByte f else s.getV r := State.getV_setV s 15 r (flagByte f)

/-- What the flag-then-result write-back does to every register (42_alu R122). -/
theorem State.getV_writeFlagResult (s : State) (x r : RegIdx) (f : Bool) (b : Byte) :
    (s.writeFlagResult x f b).getV r = if r = x then b else if r = 15 then flagByte f else s.getV r := by
  rw [State.writeFlagResult, State.getV_setV, State.getV_setFlag]

/-- What a block load does to every register (43_memory_index R156). -/
theorem loadBlock_get (m : Memory) (a : Nat) (x r : RegIdx) (v : Vector Byte 16) :
    (loadBlock m a x v)[r.toNat]'r.isLt =
      if r.toNat ≤ x.toNat then m.read (a + r.toNat) else v[r.toNat]'r.isLt := by
  simp [loadBlock, Vector.get_eq_getElem]

/-- The bytes a block store writes are the registers from 0 on (43_memory_index R155). -/
theorem State.block0To_getElem (s : State) (x : RegIdx) (k : Nat) (h : k < (s.block0To x).length) :
    (s.block0To x)[k] = s.getV (BitVec.ofNat 4 k) := by
  have hx := x.isLt
  simp only [State.block0To, blockLen, List.length_take, Vector.length_toList] at h
  have hk : k % 16 = k := Nat.mod_eq_of_lt (by omega)
  simp [State.block0To, State.getV, hk]

theorem State.block0To_length (s : State) (x : RegIdx) : (s.block0To x).length = x.toNat + 1 := by
  have hx := x.isLt
  simp only [State.block0To, blockLen, List.length_take, Vector.length_toList]
  omega

theorem flagByte_eq (f : Bool) : flagByte f = 0 ∨ flagByte f = 1 := by cases f <;> simp [flagByte]

end Sys2Proof.Machine
end

