-- ==== Sys2Proof/Laws/Step.lean ====
section
/-! SUPPORT. What a step can do, said once: the four cases of `cycle()` (40_fetch_dispatch R90), and that every instruction answers
a next state. -/

namespace Sys2Proof.Machine

theorem step_faulted (s : State) (h : s.fault ≠ 0) : step s = .next s := by
  unfold step cycle; rw [if_pos h]

theorem step_blocked (s : State) (hf : s.fault = 0) (hb : s.block = true) : step s = .next (pollWaitKey s) := by
  unfold step cycle; rw [if_neg (by simp [hf]), if_pos hb]

theorem step_unfetchable (s : State) (hf : s.fault = 0) (hb : s.block = false) (hp : 0x0FFE < s.pc.toNat) :
    step s = .next (raise .fetchOutOfRange s.pc s) := by
  unfold step cycle fetch
  rw [if_neg (by simp [hf]), if_neg (by simp [hb]), if_neg (by omega)]

theorem step_ready (s : State) (h : s.Ready) : step s = retire s.wordAtPc (exec (decode s.wordAtPc) s) := by
  obtain ⟨hf, hb, hp⟩ := h
  unfold step cycle fetch
  rw [if_neg (by simp [hf]), if_neg (by simp [hb]), if_pos hp]
  rfl

/-- The four cases a state can be in when a step begins. -/
theorem step_cases (s : State) :
    s.fault ≠ 0 ∨ (s.fault = 0 ∧ s.block = true) ∨ (s.fault = 0 ∧ s.block = false ∧ 0x0FFE < s.pc.toNat) ∨ s.Ready := by
  by_cases hf : s.fault = 0
  · cases hb : s.block
    · by_cases hp : s.pc.toNat ≤ 0x0FFE
      · exact .inr (.inr (.inr ⟨hf, hb, hp⟩))
      · exact .inr (.inr (.inl ⟨hf, rfl, by omega⟩))
    · exact .inr (.inl ⟨hf, rfl⟩)
  · exact .inl hf

/-- Every instruction answers a next state, from every state. -/
theorem exec_answers (i : Instr) (s : State) : ∃ t, exec i s = .next t := by
  cases i
  case call nnn => simp only [exec, execCall]; split <;> exact ⟨_, rfl⟩
  case ret => simp only [exec, execRet]; split <;> exact ⟨_, rfl⟩
  case drw x y n => simp only [exec, execDrw]; split <;> exact ⟨_, rfl⟩
  case skp x => simp only [exec, execSkp]; split <;> exact ⟨_, rfl⟩
  case sknp x => simp only [exec, execSknp]; split <;> exact ⟨_, rfl⟩
  case ldBVx x => simp only [exec, execLdBVx]; split <;> exact ⟨_, rfl⟩
  case ldMemVx x => simp only [exec, execLdMemVx]; split <;> exact ⟨_, rfl⟩
  case ldVxMem x => simp only [exec, execLdVxMem]; split <;> exact ⟨_, rfl⟩
  all_goals exact ⟨_, rfl⟩

/-- What `fetch` answers. -/
theorem fetch_eq (s : State) : fetch s = if s.pc.toNat ≤ 0x0FFE then some s.wordAtPc else none := rfl

/-- What `push` answers on a stack that is not full, and on a full one (41_control_flow R101). -/
theorem State.push_eq (s : State) (a : Word) (h : s.sp.val < 16) :
    s.push a = some { s with stk := s.stk.set s.sp.val a h, sp := ⟨s.sp.val + 1, by omega⟩ } := by
  unfold State.push; rw [dif_pos h]

theorem State.push_full (s : State) (a : Word) (h : ¬ s.sp.val < 16) : s.push a = none := by
  unfold State.push; rw [dif_neg h]

/-- What `pop` answers on a stack that is not empty, and on an empty one (41_control_flow R102). -/
theorem State.pop_eq (s : State) (h : s.sp.val ≠ 0) :
    s.pop = some (s.stk[s.sp.val - 1]'(by omega), { s with sp := ⟨s.sp.val - 1, by omega⟩ }) := by
  unfold State.pop; rw [dif_neg h]

theorem State.pop_empty (s : State) (h : s.sp.val = 0) : s.pop = none := by
  unfold State.pop; rw [dif_pos h]

/-- Which key a register names (45_input R180). -/
theorem State.keyNamed_eq (s : State) (b : Byte) (k : Fin 16) (h : b.toNat = k.val) :
    s.keyNamed b = some (s.key.get k) := by
  unfold State.keyNamed
  rw [dif_pos (by omega)]
  simp [h, Vector.get_eq_getElem]

theorem State.keyNamed_none (s : State) (b : Byte) (h : 15 < b.toNat) : s.keyNamed b = none := by
  unfold State.keyNamed; rw [dif_neg (by omega)]

/-! ### The key encoder (45_input R185) -/

theorem lowestHeldFrom_none (bs : List Bool) : ∀ n, lowestHeldFrom n bs = none ↔ ∀ b ∈ bs, b = false := by
  induction bs with
  | nil => intro n; simp [lowestHeldFrom]
  | cons b bs ih => intro n; cases b <;> simp [lowestHeldFrom, ih]

theorem lowestHeldFrom_some (bs : List Bool) : ∀ n k, lowestHeldFrom n bs = some k ↔
    n ≤ k ∧ bs[k - n]? = some true ∧ ∀ j, n ≤ j → j < k → bs[j - n]? = some false := by
  induction bs with
  | nil => intro n k; simp [lowestHeldFrom]
  | cons b bs ih =>
    intro n k
    cases b with
    | true =>
      simp only [lowestHeldFrom, if_true, Option.some.injEq]
      constructor
      · rintro rfl
        exact ⟨Nat.le_refl _, by simp, fun j h1 h2 => absurd h1 (by omega)⟩
      · rintro ⟨h1, _, h3⟩
        by_contra hne
        have := h3 n (Nat.le_refl _) (by omega)
        simp at this
    | false =>
      simp only [lowestHeldFrom, Bool.false_eq_true, if_false]
      rw [ih]
      constructor
      · rintro ⟨h1, h2, h3⟩
        obtain ⟨d, hd⟩ : ∃ d, k = n + 1 + d := ⟨k - (n + 1), by omega⟩
        subst hd
        refine ⟨by omega, ?_, ?_⟩
        · rw [show n + 1 + d - n = d + 1 by omega, List.getElem?_cons_succ]
          rwa [show n + 1 + d - (n + 1) = d by omega] at h2
        · intro j hj1 hj2
          by_cases hj : j = n
          · subst hj; simp
          · have := h3 j (by omega) hj2
            rw [show j - n = (j - (n + 1)) + 1 by omega, List.getElem?_cons_succ]
            exact this
      · rintro ⟨h1, h2, h3⟩
        have hk : k ≠ n := by rintro rfl; simp at h2
        refine ⟨by omega, ?_, ?_⟩
        · rw [show k - n = (k - (n + 1)) + 1 by omega, List.getElem?_cons_succ] at h2
          exact h2
        · intro j hj1 hj2
          have := h3 j (by omega) hj2
          rw [show j - n = (j - (n + 1)) + 1 by omega, List.getElem?_cons_succ] at this
          exact this

/-- The encoder answers the lowest-numbered held key. -/
theorem lowestHeld_eq (s : State) (k : Fin 16) (h : s.LowestHeld k) : lowestHeld s.key = some k.val := by
  unfold lowestHeld
  rw [lowestHeldFrom_some]
  refine ⟨Nat.zero_le _, ?_, ?_⟩
  · have := h.1
    simp [Vector.get_eq_getElem] at this
    simp [this]
  · intro j _ hj
    have := h.2 ⟨j, by omega⟩ hj
    simp [Vector.get_eq_getElem] at this
    have hj16 : j < 16 := by omega
    simp [this, hj16]

/-- The encoder answers nothing where no key is held. -/
theorem lowestHeld_none (s : State) (h : ∀ k : Fin 16, s.key.get k = false) : lowestHeld s.key = none := by
  unfold lowestHeld
  rw [lowestHeldFrom_none]
  intro b hb
  obtain ⟨j, hj, rfl⟩ := List.mem_iff_getElem.mp hb
  have := h ⟨j, by simpa using hj⟩
  simpa [Vector.get_eq_getElem] using this

/-- Either no key is held or one is the lowest. -/
theorem State.lowestHeld_cases (s : State) : (∀ k : Fin 16, s.key.get k = false) ∨ ∃ k, s.LowestHeld k := by
  cases h : lowestHeld s.key with
  | none =>
    left
    intro k
    unfold lowestHeld at h
    rw [lowestHeldFrom_none] at h
    rw [Vector.get_eq_getElem]
    exact h _ (by simp)
  | some k =>
    right
    unfold lowestHeld at h
    rw [lowestHeldFrom_some] at h
    obtain ⟨_, h2, h3⟩ := h
    have hk : k < 16 := by
      have := (List.getElem?_eq_some_iff.mp h2).1
      simpa using this
    refine ⟨⟨k, hk⟩, ?_, ?_⟩
    · simpa [Vector.get_eq_getElem, hk] using h2
    · intro j hj
      have := h3 j.val (Nat.zero_le _) hj
      simpa [Vector.get_eq_getElem] using this

/-- `wait_key` with a key held (45_input R182). -/
theorem State.waitKey_held (s : State) (x : RegIdx) (k : Fin 16) (h : s.LowestHeld k) :
    s.waitKey x = { s with block := false }.setV x (BitVec.ofNat 8 k.val) := by
  unfold State.waitKey; rw [lowestHeld_eq s k h]

/-- `wait_key` with no key held (45_input R182). -/
theorem State.waitKey_none (s : State) (x : RegIdx) (h : ∀ k : Fin 16, s.key.get k = false) :
    s.waitKey x = { s with block := true } := by
  unfold State.waitKey; rw [lowestHeld_none s h]

/-! ### The range check (20_memory R55) -/

theorem rangeOk_true {a : Word} {n : Nat} (h : n = 0 ∨ a.toNat + n - 1 ≤ 0x0FFF) : rangeOk a n = true := by
  unfold rangeOk
  simp only [Bool.or_eq_true, beq_iff_eq, decide_eq_true_eq]
  omega

theorem rangeOk_false {a : Word} {n : Nat} (h : n ≠ 0) (h' : 0x0FFF < a.toNat + n - 1) : rangeOk a n = false := by
  unfold rangeOk
  simp only [Bool.or_eq_false_iff, beq_eq_false_iff_ne, decide_eq_false_iff_not]
  omega

end Sys2Proof.Machine
end

