-- ==== Sys2Proof/Laws/Frames.lean ====
section
/-! SUPPORT. For each shared operation of a meaning, one lemma that says what it writes and that it keeps the rest; and for each
meaning that can fault, what it answers in and out of its range. -/

namespace Sys2Proof.Machine

/-- Fields that are equal are kept. -/
theorem allButRegsKept_of_eq {s t : State} (hi : t.i = s.i) (hsp : t.sp = s.sp) (hstk : t.stk = s.stk) (hm : t.mem = s.mem)
    (hd : t.disp = s.disp) (hk : t.key = s.key) (hdt : t.dt = s.dt) (hst : t.st = s.st) (hb : t.block = s.block)
    (hir : t.ir = s.ir) (hf : t.fault = s.fault) (hfp : t.faultPc = s.faultPc) (hfi : t.faultInfo = s.faultInfo) :
    AllButRegsKept s t :=
  ⟨hi, ⟨hsp, hstk⟩, fun a => by rw [hm], fun r c => by unfold pixelAt; rw [hd], hk, ⟨hdt, hst⟩, hb, hir, hf, hfp, hfi⟩

/-- The advance and a register write. -/
theorem advance_setV_frame (s : State) (x : RegIdx) (b : Byte) :
    (s.advance.setV x b).getV x = b ∧ RegsKeptBut (· = x) s (s.advance.setV x b) ∧
      (s.advance.setV x b).pc = s.pc + 2 ∧ AllButRegsKept s (s.advance.setV x b) :=
  ⟨by simp, fun r h => by rw [State.getV_setV_ne _ _ h]; rfl, rfl, by apply allButRegsKept_of_eq <;> rfl⟩

/-- The advance and a write-back with a flag (42_alu R122). -/
theorem advance_writeFlagResult_frame (s : State) (x : RegIdx) (f : Bool) (b : Byte) :
    (s.advance.writeFlagResult x f b).getV x = b ∧
      (x ≠ 15 → (s.advance.writeFlagResult x f b).getV 15 = flagByte f) ∧
      RegsKeptBut (fun r => r = x ∨ r = 15) s (s.advance.writeFlagResult x f b) ∧
      (s.advance.writeFlagResult x f b).pc = s.pc + 2 ∧ AllButRegsKept s (s.advance.writeFlagResult x f b) := by
  refine ⟨?_, fun h => ?_, fun r h => ?_, rfl, by apply allButRegsKept_of_eq <;> rfl⟩
  · rw [State.getV_writeFlagResult]; simp
  · rw [State.getV_writeFlagResult, if_neg h.symm]; simp
  · rw [State.getV_writeFlagResult]; rw [not_or] at h; rw [if_neg h.1, if_neg h.2]; rfl

/-- The advance and a skip (41_control_flow R108). -/
theorem advance_skipIf_frame (s : State) (b : Bool) :
    (s.advance.skipIf b).pc = (if b then s.pc + 4 else s.pc + 2) ∧
      RegsKept s (s.advance.skipIf b) ∧ AllButRegsKept s (s.advance.skipIf b) := by
  refine ⟨?_, fun r => by simp, by apply allButRegsKept_of_eq <;> simp⟩
  rw [State.skipIf_pc, State.advance_pc]
  split
  · rw [BitVec.add_assoc]; rfl
  · rfl

/-! ### A whole draw -/

/-- A draw xors the clipped sprite into every pixel (44_display R171 to R173). -/
theorem drawn_pixel (x y : RegIdx) (n : Nibble) (s : State) (r : Fin 32) (c : Fin 64) :
    (drawn x y n s).1.get r c = (pixelAt s r c != s.spriteAt x y n r c) := by
  unfold drawn
  rw [blendRows_get]
  simp only [Memory.readList_length, originRow, originCol]
  unfold State.spriteAt spriteBit pixelAt
  split
  · next h =>
    rw [Memory.readList_getD _ _ _ _ (by omega)]
    simp only [Config.dispRows, Config.dispCols] at h ⊢
    simp [show (s.getV y).toNat % 32 ≤ r.val by omega, show r.val < (s.getV y).toNat % 32 + n.toNat by omega,
      show (s.getV x).toNat % 64 ≤ c.val by omega, show c.val < (s.getV x).toNat % 64 + 8 by omega]
  · next h =>
    have hr := r.isLt
    have hc := c.isLt
    simp only [Config.dispRows, Config.dispCols] at h ⊢
    have : (decide ((s.getV y).toNat % 32 ≤ r.val) && decide (r.val < (s.getV y).toNat % 32 + n.toNat) && decide ((s.getV x).toNat % 64 ≤ c.val) && decide (c.val < (s.getV x).toNat % 64 + 8)) = false := by
      rw [Bool.eq_false_iff]; intro hh; simp only [Bool.and_eq_true, decide_eq_true_eq] at hh
      exact h ⟨hr, hc, by omega⟩
    simp [this]

/-- A draw collides exactly where a set pixel meets a set sprite bit (44_display R171). -/
theorem drawn_collision (x y : RegIdx) (n : Nibble) (s : State) :
    (drawn x y n s).2 = true ↔ ∃ (r : Fin 32) (c : Fin 64), pixelAt s r c = true ∧ s.spriteAt x y n r c = true := by
  unfold drawn
  rw [blendRows_hit]
  simp only [Memory.readList_length, originRow, originCol, Bool.false_eq_true, false_or, Config.dispRows, Config.dispCols]
  unfold State.spriteAt spriteBit pixelAt
  constructor
  · rintro ⟨r, c, h1, h2, h3, h4, h5, h6, h7, h8⟩
    rw [Memory.readList_getD _ _ _ _ (by omega)] at h8
    exact ⟨⟨r, h1⟩, ⟨c, h2⟩, h7, by simp [*]⟩
  · rintro ⟨r, c, h7, h8⟩
    simp only [Bool.and_eq_true, decide_eq_true_eq] at h8
    obtain ⟨⟨⟨⟨h1, h2⟩, h3⟩, h4⟩, h5⟩ := h8
    refine ⟨r, c, r.isLt, c.isLt, h1, h2, h3, h4, h7, ?_⟩
    rw [Memory.readList_getD _ _ _ _ (by omega)]; exact h5

/-! ### A program load (47_host_interface R203) -/

/-- What a load answers: refused after a cycle or another load, failed where it is too long, and else done. -/
theorem transact_load (σ : Session) (b : List Byte) : transact σ (.load b) =
    if σ.cycled || σ.loaded then (σ, .notAccepted)
    else if 3584 < b.length then (σ, .failure)
    else ({ σ with core := { σ.core with mem := σ.core.mem.writeList 0x200 b }, loaded := true }, .success) := by
  simp only [transact, loadProgram]
  split
  · rfl
  · by_cases h : 3584 < b.length <;> simp [h]

/-! ### The meanings that can fault, in range and out of range -/

theorem execCall_eq (nnn : Addr12) (s : State) (h : s.sp.val < 16) : exec (.call nnn) s =
    .next { s.advance with stk := s.stk.set s.sp.val (s.pc + 2) h, sp := ⟨s.sp.val + 1, by omega⟩, pc := addrImm nnn } := by
  simp only [exec, execCall, State.push_eq s.advance s.advance.pc h]; rfl

theorem execCall_full (nnn : Addr12) (s : State) (h : ¬ s.sp.val < 16) :
    exec (.call nnn) s = .next (raise .stackOverflow (spInfo s) s) := by
  simp only [exec, execCall, State.push_full s.advance s.advance.pc h]

theorem execRet_eq (s : State) (h : s.sp.val ≠ 0) : exec .ret s =
    .next { s.advance with sp := ⟨s.sp.val - 1, by omega⟩, pc := s.stk[s.sp.val - 1]'(by omega) } := by
  simp only [exec, execRet, State.pop_eq s.advance h]; rfl

theorem execRet_empty (s : State) (h : s.sp.val = 0) : exec .ret s = .next (raise .stackUnderflow (spInfo s) s) := by
  simp only [exec, execRet, State.pop_empty s.advance h]

theorem execSkp_eq (x : RegIdx) (s : State) (k : Fin 16) (h : (s.getV x).toNat = k.val) :
    exec (.skp x) s = .next (s.advance.skipIf (s.key.get k)) := by
  simp only [exec, execSkp, State.keyNamed_eq s _ k h]

theorem execSkp_none (x : RegIdx) (s : State) (h : 15 < (s.getV x).toNat) :
    exec (.skp x) s = .next (raise .keyIndexOutOfRange (byteImm (s.getV x)) s) := by
  simp only [exec, execSkp, State.keyNamed_none s _ h]

theorem execSknp_eq (x : RegIdx) (s : State) (k : Fin 16) (h : (s.getV x).toNat = k.val) :
    exec (.sknp x) s = .next (s.advance.skipIf !(s.key.get k)) := by
  simp only [exec, execSknp, State.keyNamed_eq s _ k h]

theorem execSknp_none (x : RegIdx) (s : State) (h : 15 < (s.getV x).toNat) :
    exec (.sknp x) s = .next (raise .keyIndexOutOfRange (byteImm (s.getV x)) s) := by
  simp only [exec, execSknp, State.keyNamed_none s _ h]

theorem execDrw_eq (x y : RegIdx) (n : Nibble) (s : State) (h : n = 0 ∨ s.i.toNat + n.toNat - 1 ≤ 0x0FFF) :
    exec (.drw x y n) s = .next { s.advance.setFlag (drawn x y n s).2 with disp := (drawn x y n s).1 } :=
  if_pos (rangeOk_true (h.imp (fun e => by simp [e]) id))

theorem execDrw_out (x y : RegIdx) (n : Nibble) (s : State) (h : 0 < n.toNat) (h' : 0x0FFF < s.i.toNat + n.toNat - 1) :
    exec (.drw x y n) s = .next (raise .dataReadOutOfRange s.i s) := by
  simp only [exec, execDrw, rangeOk_false (by omega : n.toNat ≠ 0) h']; rfl

theorem execLdBVx_eq (x : RegIdx) (s : State) (h : s.i.toNat + 2 ≤ 0x0FFF) : exec (.ldBVx x) s =
    .next { s.advance with mem := s.mem.writeList s.i.toNat (decimalDigits (s.getV x)) } :=
  if_pos (rangeOk_true (.inr (by omega)))

theorem execLdBVx_out (x : RegIdx) (s : State) (h : 0x0FFF < s.i.toNat + 2) :
    exec (.ldBVx x) s = .next (raise .dataWriteOutOfRange s.i s) := by
  simp only [exec, execLdBVx, rangeOk_false (a := s.i) (n := 3) (by omega) (by omega)]; rfl

theorem execLdMemVx_eq (x : RegIdx) (s : State) (h : s.i.toNat + x.toNat ≤ 0x0FFF) : exec (.ldMemVx x) s =
    .next { s.advance with
      mem := s.mem.writeList s.i.toNat (s.block0To x)
      i := s.i + BitVec.ofNat 16 (blockLen x) } :=
  if_pos (rangeOk_true (.inr (by unfold blockLen; omega)))

theorem execLdMemVx_out (x : RegIdx) (s : State) (h : 0x0FFF < s.i.toNat + x.toNat) :
    exec (.ldMemVx x) s = .next (raise .dataWriteOutOfRange s.i s) := by
  simp only [exec, execLdMemVx, rangeOk_false (a := s.i) (n := blockLen x) (by unfold blockLen; omega)
    (by unfold blockLen; omega)]; rfl

theorem execLdVxMem_eq (x : RegIdx) (s : State) (h : s.i.toNat + x.toNat ≤ 0x0FFF) : exec (.ldVxMem x) s =
    .next { s.advance with
      v := loadBlock s.mem s.i.toNat x s.v
      i := s.i + BitVec.ofNat 16 (blockLen x) } :=
  if_pos (rangeOk_true (.inr (by unfold blockLen; omega)))

theorem execLdVxMem_out (x : RegIdx) (s : State) (h : 0x0FFF < s.i.toNat + x.toNat) :
    exec (.ldVxMem x) s = .next (raise .dataReadOutOfRange s.i s) := by
  simp only [exec, execLdVxMem, rangeOk_false (a := s.i) (n := blockLen x) (by unfold blockLen; omega)
    (by unfold blockLen; omega)]; rfl

end Sys2Proof.Machine
end

