-- ==== Sys2Proof/Laws/PerInstr.lean ====
section
/-! SUPPORT. The family `WordMatchesTable`, one lemma per constructor of `Instr`: the word of an instruction lies in its own row of
the opcode table of 30_encoding R75. -/

/-- 30_encoding R75, R76: every well-formed instruction has a word that its own row of the opcode table takes; the no-op, row 36, has
none of the rows 1 to 35 (R77) and is written as 0x0000. -/
def Sys2Proof.Laws.WordMatchesTable.Statement (i : Sys2Proof.Instr) : Prop :=
  ∀ ldst : Option Sys2Proof.Byte, i.wf ldst = true → ∃ w, Sys2Proof.encodeWith ldst i = some w ∧
    ((i = .nop ∧ w = 0x0000#16) ∨
      ∃ row ∈ Sys2Proof.opcodeRows ldst, w &&& row.mask = row.value ∧ row.instr w = i)

namespace Sys2Proof.Laws.WordMatchesTable

/-! ### What the masks keep of a word -/

theorem mask_sel_nnn (s : BitVec 4) (nnn : Addr12) : (s ++ nnn) &&& 0xF000#16 = s ++ 0#12 := by
  apply BitVec.eq_of_getLsbD_eq
  intro i hi
  simp only [BitVec.getLsbD_and, BitVec.getLsbD_append]
  interval_cases i <;> simp

theorem mask_sel_xnn (s x : BitVec 4) (nn : Byte) : (s ++ x ++ nn) &&& 0xF000#16 = s ++ 0#4 ++ 0#8 := by
  apply BitVec.eq_of_getLsbD_eq
  intro i hi
  simp only [BitVec.getLsbD_and, BitVec.getLsbD_append]
  interval_cases i <;> simp

theorem mask_low_xnn (s x : BitVec 4) (nn : Byte) : (s ++ x ++ nn) &&& 0xF0FF#16 = s ++ 0#4 ++ nn := by
  apply BitVec.eq_of_getLsbD_eq
  intro i hi
  simp only [BitVec.getLsbD_and, BitVec.getLsbD_append]
  interval_cases i <;> simp

theorem mask_sel_xyn (s x y n : BitVec 4) : (s ++ x ++ y ++ n) &&& 0xF000#16 = s ++ 0#4 ++ 0#4 ++ 0#4 := by
  apply BitVec.eq_of_getLsbD_eq
  intro i hi
  simp only [BitVec.getLsbD_and, BitVec.getLsbD_append]
  interval_cases i <;> simp

theorem mask_low_xyn (s x y n : BitVec 4) : (s ++ x ++ y ++ n) &&& 0xF00F#16 = s ++ 0#4 ++ 0#4 ++ n := by
  apply BitVec.eq_of_getLsbD_eq
  intro i hi
  simp only [BitVec.getLsbD_and, BitVec.getLsbD_append]
  interval_cases i <;> simp

/-- An instruction with a row at place `k` of the table. -/
theorem of_row {i : Instr} {w : Word} (k : Nat) (row : OpcodeRow) (he : ∀ ldst, encodeWith ldst i = some w)
    (hr : ∀ ldst, (opcodeRows ldst)[k]? = some row) (hm : w &&& row.mask = row.value) (hi : row.instr w = i) :
    Statement i :=
  fun ldst _ => ⟨w, he ldst, .inr ⟨row, List.mem_of_getElem? (hr ldst), hm, hi⟩⟩

/-! ### The instructions, in the order of the table -/

theorem cls : Statement (.cls) :=
  of_row 0 _ (fun _ => rfl) (fun _ => rfl) rfl rfl

theorem ret : Statement (.ret) :=
  of_row 1 _ (fun _ => rfl) (fun _ => rfl) rfl rfl

theorem jp (nnn : Addr12) : Statement (.jp nnn) :=
  of_row 2 _ (fun _ => rfl) (fun _ => rfl) (mask_sel_nnn _ _) (by simp)

theorem call (nnn : Addr12) : Statement (.call nnn) :=
  of_row 3 _ (fun _ => rfl) (fun _ => rfl) (mask_sel_nnn _ _) (by simp)

theorem seVxNN (x : RegIdx) (nn : Byte) : Statement (.seVxNN x nn) :=
  of_row 4 _ (fun _ => rfl) (fun _ => rfl) (mask_sel_xnn _ _ _) (by simp)

theorem sneVxNN (x : RegIdx) (nn : Byte) : Statement (.sneVxNN x nn) :=
  of_row 5 _ (fun _ => rfl) (fun _ => rfl) (mask_sel_xnn _ _ _) (by simp)

theorem seVxVy (x : RegIdx) (y : RegIdx) : Statement (.seVxVy x y) :=
  of_row 6 _ (fun _ => rfl) (fun _ => rfl) (mask_sel_xyn _ _ _ _) (by simp)

theorem ldVxNN (x : RegIdx) (nn : Byte) : Statement (.ldVxNN x nn) :=
  of_row 7 _ (fun _ => rfl) (fun _ => rfl) (mask_sel_xnn _ _ _) (by simp)

theorem addVxNN (x : RegIdx) (nn : Byte) : Statement (.addVxNN x nn) :=
  of_row 8 _ (fun _ => rfl) (fun _ => rfl) (mask_sel_xnn _ _ _) (by simp)

theorem ldVxVy (x : RegIdx) (y : RegIdx) : Statement (.ldVxVy x y) :=
  of_row 9 _ (fun _ => rfl) (fun _ => rfl) (mask_low_xyn _ _ _ _) (by simp)

theorem orVxVy (x : RegIdx) (y : RegIdx) : Statement (.orVxVy x y) :=
  of_row 10 _ (fun _ => rfl) (fun _ => rfl) (mask_low_xyn _ _ _ _) (by simp)

theorem andVxVy (x : RegIdx) (y : RegIdx) : Statement (.andVxVy x y) :=
  of_row 11 _ (fun _ => rfl) (fun _ => rfl) (mask_low_xyn _ _ _ _) (by simp)

theorem xorVxVy (x : RegIdx) (y : RegIdx) : Statement (.xorVxVy x y) :=
  of_row 12 _ (fun _ => rfl) (fun _ => rfl) (mask_low_xyn _ _ _ _) (by simp)

theorem addVxVy (x : RegIdx) (y : RegIdx) : Statement (.addVxVy x y) :=
  of_row 13 _ (fun _ => rfl) (fun _ => rfl) (mask_low_xyn _ _ _ _) (by simp)

theorem subVxVy (x : RegIdx) (y : RegIdx) : Statement (.subVxVy x y) :=
  of_row 14 _ (fun _ => rfl) (fun _ => rfl) (mask_low_xyn _ _ _ _) (by simp)

theorem shrVxVy (x : RegIdx) (y : RegIdx) : Statement (.shrVxVy x y) :=
  of_row 15 _ (fun _ => rfl) (fun _ => rfl) (mask_low_xyn _ _ _ _) (by simp)

theorem subnVxVy (x : RegIdx) (y : RegIdx) : Statement (.subnVxVy x y) :=
  of_row 16 _ (fun _ => rfl) (fun _ => rfl) (mask_low_xyn _ _ _ _) (by simp)

theorem shlVxVy (x : RegIdx) (y : RegIdx) : Statement (.shlVxVy x y) :=
  of_row 17 _ (fun _ => rfl) (fun _ => rfl) (mask_low_xyn _ _ _ _) (by simp)

theorem sneVxVy (x : RegIdx) (y : RegIdx) : Statement (.sneVxVy x y) :=
  of_row 18 _ (fun _ => rfl) (fun _ => rfl) (mask_sel_xyn _ _ _ _) (by simp)

theorem ldINNN (nnn : Addr12) : Statement (.ldINNN nnn) :=
  of_row 19 _ (fun _ => rfl) (fun _ => rfl) (mask_sel_nnn _ _) (by simp)

theorem jpV0 (nnn : Addr12) : Statement (.jpV0 nnn) :=
  of_row 20 _ (fun _ => rfl) (fun _ => rfl) (mask_sel_nnn _ _) (by simp)

theorem rnd (x : RegIdx) (nn : Byte) : Statement (.rnd x nn) :=
  of_row 21 _ (fun _ => rfl) (fun _ => rfl) (mask_sel_xnn _ _ _) (by simp)

theorem drw (x : RegIdx) (y : RegIdx) (n : Nibble) : Statement (.drw x y n) :=
  of_row 22 _ (fun _ => rfl) (fun _ => rfl) (mask_sel_xyn _ _ _ _) (by simp)

theorem skp (x : RegIdx) : Statement (.skp x) :=
  of_row 23 _ (fun _ => rfl) (fun _ => rfl) (mask_low_xnn _ _ _) (by simp)

theorem sknp (x : RegIdx) : Statement (.sknp x) :=
  of_row 24 _ (fun _ => rfl) (fun _ => rfl) (mask_low_xnn _ _ _) (by simp)

theorem ldVxDT (x : RegIdx) : Statement (.ldVxDT x) :=
  of_row 25 _ (fun _ => rfl) (fun _ => rfl) (mask_low_xnn _ _ _) (by simp)

theorem ldVxK (x : RegIdx) : Statement (.ldVxK x) :=
  of_row 26 _ (fun _ => rfl) (fun _ => rfl) (mask_low_xnn _ _ _) (by simp)

theorem ldDTVx (x : RegIdx) : Statement (.ldDTVx x) :=
  of_row 27 _ (fun _ => rfl) (fun _ => rfl) (mask_low_xnn _ _ _) (by simp)

theorem ldSTVx (x : RegIdx) : Statement (.ldSTVx x) :=
  of_row 28 _ (fun _ => rfl) (fun _ => rfl) (mask_low_xnn _ _ _) (by simp)

theorem addIVx (x : RegIdx) : Statement (.addIVx x) :=
  of_row 29 _ (fun _ => rfl) (fun _ => rfl) (mask_low_xnn _ _ _) (by simp)

theorem ldFVx (x : RegIdx) : Statement (.ldFVx x) :=
  of_row 30 _ (fun _ => rfl) (fun _ => rfl) (mask_low_xnn _ _ _) (by simp)

theorem ldBVx (x : RegIdx) : Statement (.ldBVx x) :=
  of_row 31 _ (fun _ => rfl) (fun _ => rfl) (mask_low_xnn _ _ _) (by simp)

theorem ldMemVx (x : RegIdx) : Statement (.ldMemVx x) :=
  of_row 32 _ (fun _ => rfl) (fun _ => rfl) (mask_low_xnn _ _ _) (by simp)

theorem ldVxMem (x : RegIdx) : Statement (.ldVxMem x) :=
  of_row 33 _ (fun _ => rfl) (fun _ => rfl) (mask_low_xnn _ _ _) (by simp)

/-- Row 35 is in the table only where LDST_SUBOP is set (R81). -/
theorem ldVxST (x : RegIdx) : Statement (.ldVxST x) := by
  intro ldst h
  cases ldst with
  | none => exact absurd h (by simp [Instr.wf])
  | some k =>
    have hk : assignedF.contains k = false := by simpa [Instr.wf] using h
    refine ⟨0xF#4 ++ x ++ k, by simp only [encodeWith, hk]; rfl, .inr ⟨_, List.mem_of_getElem? (i := 34) rfl, ?_, ?_⟩⟩
    · change (0xF#4 ++ x ++ k) &&& 0xF0FF#16 = 0xF000#16 + k.setWidth 16
      rw [mask_low_xnn]
      apply BitVec.eq_of_getLsbD_eq
      intro i hi
      have hadd : 0xF000#16 + k.setWidth 16 = 0xF000#16 ||| k.setWidth 16 := by
        apply BitVec.add_eq_or_of_and_eq_zero
        apply BitVec.eq_of_getLsbD_eq
        intro j hj
        simp only [BitVec.getLsbD_and, BitVec.getLsbD_setWidth]
        interval_cases j <;> simp
      rw [hadd]
      simp only [BitVec.getLsbD_or, BitVec.getLsbD_append, BitVec.getLsbD_setWidth]
      interval_cases i <;> simp
    · simp

theorem nop : Statement (.nop) := fun _ _ => ⟨0x0000#16, rfl, .inl ⟨rfl, rfl⟩⟩

end Sys2Proof.Laws.WordMatchesTable
end

