-- ==== Sys2Proof/Tests/Slice0.lean ====
section
/-! SUPPORT. The model's own tests. Expected results come from the spec: the words from the bit layouts of 30_encoding R72 and
R75, the steps from the vectors of 95_test_vectors (the vector's name is the test's). The `witness_` theorems give, for each
statement of Certificates/Slice0/Obligations.lean that has hypotheses, a state and operands that meet them. -/

namespace Sys2Proof.Tests

open Sys2Proof.Machine

/-! ### Helpers -/

/-- The state one step leads to. -/
def after (s : State) : State :=
  match step s with
  | .next t => t
  | .fault _ => s
  | .refused _ => s

/-- The state an instruction leads to. -/
def done (i : Instr) (s : State) : State :=
  match exec i s with
  | .next t => t
  | .fault _ => s
  | .refused _ => s

/-- The reset state with the word `w` at `pc`. -/
def at200 (w : Nat) : State := State.reset.withFetchWord 16 w

/-- The reset state with the word `w` at `pc`, `V[0]`, `V[1]`, `V[2]` and VF. -/
def regs (w : Nat) (a b c f : Byte) : State := ((((at200 w).setV 0 a).setV 1 b).setV 2 c).setV 15 f

/-- `s` with key `k` held. -/
def hold (k : Fin 16) (s : State) : State := setKey k true s

/-! ### Well-formedness: the one check there is, and the terms it refuses -/

theorem test_wf_ldVxST_unset_refused : (Instr.ldVxST 3).wf none = false := by decide
theorem test_wf_ldVxST_assigned_refused : (Instr.ldVxST 3).wf (some 0x65) = false := by decide
theorem test_wf_ldVxST_free_accepted : (Instr.ldVxST 3).wf (some 0x75) = true := by decide
theorem test_wf_setting_assigned_refused : ldstLegal (some 0x07) = false := by decide
theorem test_wf_setting_unset_accepted : ldstLegal none = true := by decide

/-! ### Decoding: each constructor's word, bit by bit from 30_encoding R72 and R75 -/

theorem test_decode_cls : decode 0b0000000011100000 = .cls := by decide
theorem test_decode_ret : decode 0b0000000011101110 = .ret := by decide
theorem test_decode_jp : decode 0b0001001000110100 = .jp 0b001000110100 := by decide
theorem test_decode_call : decode 0b0010100000000001 = .call 0b100000000001 := by decide
theorem test_decode_seVxNN : decode 0b0011101000000101 = .seVxNN 0b1010 0b00000101 := by decide
theorem test_decode_sneVxNN : decode 0b0100101000000101 = .sneVxNN 0b1010 0b00000101 := by decide
theorem test_decode_seVxVy : decode 0b0101000100100111 = .seVxVy 0b0001 0b0010 := by decide
theorem test_decode_ldVxNN : decode 0b0110000011111110 = .ldVxNN 0b0000 0b11111110 := by decide
theorem test_decode_addVxNN : decode 0b0111001100100000 = .addVxNN 0b0011 0b00100000 := by decide
theorem test_decode_ldVxVy : decode 0b1000000100100000 = .ldVxVy 0b0001 0b0010 := by decide
theorem test_decode_orVxVy : decode 0b1000000100100001 = .orVxVy 0b0001 0b0010 := by decide
theorem test_decode_andVxVy : decode 0b1000000100100010 = .andVxVy 0b0001 0b0010 := by decide
theorem test_decode_xorVxVy : decode 0b1000000100100011 = .xorVxVy 0b0001 0b0010 := by decide
theorem test_decode_addVxVy : decode 0b1000000100100100 = .addVxVy 0b0001 0b0010 := by decide
theorem test_decode_subVxVy : decode 0b1000000100100101 = .subVxVy 0b0001 0b0010 := by decide
theorem test_decode_shrVxVy : decode 0b1000000100100110 = .shrVxVy 0b0001 0b0010 := by decide
theorem test_decode_subnVxVy : decode 0b1000000100100111 = .subnVxVy 0b0001 0b0010 := by decide
theorem test_decode_shlVxVy : decode 0b1000000100101110 = .shlVxVy 0b0001 0b0010 := by decide
theorem test_decode_sneVxVy : decode 0b1001000100101111 = .sneVxVy 0b0001 0b0010 := by decide
theorem test_decode_ldINNN : decode 0b1010111100000001 = .ldINNN 0b111100000001 := by decide
theorem test_decode_jpV0 : decode 0b1011001100000000 = .jpV0 0b001100000000 := by decide
theorem test_decode_rnd : decode 0b1100000100001111 = .rnd 0b0001 0b00001111 := by decide
theorem test_decode_drw : decode 0b1101000000010101 = .drw 0b0000 0b0001 0b0101 := by decide
theorem test_decode_skp : decode 0b1110000110011110 = .skp 0b0001 := by decide
theorem test_decode_sknp : decode 0b1110000110100001 = .sknp 0b0001 := by decide
theorem test_decode_ldVxDT : decode 0b1111001000000111 = .ldVxDT 0b0010 := by decide
theorem test_decode_ldVxK : decode 0b1111000100001010 = .ldVxK 0b0001 := by decide
theorem test_decode_ldDTVx : decode 0b1111000000010101 = .ldDTVx 0b0000 := by decide
theorem test_decode_ldSTVx : decode 0b1111000000011000 = .ldSTVx 0b0000 := by decide
theorem test_decode_addIVx : decode 0b1111001000011110 = .addIVx 0b0010 := by decide
theorem test_decode_ldFVx : decode 0b1111000000101001 = .ldFVx 0b0000 := by decide
theorem test_decode_ldBVx : decode 0b1111000000110011 = .ldBVx 0b0000 := by decide
theorem test_decode_ldMemVx : decode 0b1111001001010101 = .ldMemVx 0b0010 := by decide
theorem test_decode_ldVxMem : decode 0b1111001001100101 = .ldVxMem 0b0010 := by decide
theorem test_decode_ldVxST : decodeWith (some 0b01110101) 0b1111001101110101 = .ldVxST 0b0011 := by decide
theorem test_decode_nop : decode 0b1000000000011111 = .nop := by decide

/-- High byte at the lower address (20_memory R52). -/
theorem test_decodeBytes_order : decodeBytes [0x12, 0x34, 0x56] = .ok (.jp 0x234, [0x56]) := by rfl
theorem test_decodeBytes_short : decodeBytes [0x12] = .error .fewerThanTwoBytes := by rfl
theorem test_decodeTableWord : decodeTableWord 16 0x1234 = some (.jp 0x234) := by decide

/-! ### Steps, control flow -/

theorem test_VF2_nop : (after (at200 0x801F)).pc = 0x202 ∧ (after (at200 0x801F)).ir = 0x801F := by decide
theorem test_VC3_jp : (after (at200 0x1001)).pc = 0x001 := by decide
theorem test_VC6_call : (after { at200 0x2300 with sp := 15 }).stk.get 15 = 0x202 ∧
    (after { at200 0x2300 with sp := 15 }).sp = 16 := by decide
theorem test_VC7_call_overflow : (after { at200 0x2300 with sp := 16 }).fault = 4 ∧
    (after { at200 0x2300 with sp := 16 }).faultInfo = 0x10 ∧ (after { at200 0x2300 with sp := 16 }).pc = 0x200 := by decide
theorem test_VC10_ret : (after { at200 0x07EE with sp := 1, stk := State.reset.stk.set 0 0x300 }).pc = 0x300 := by decide
theorem test_VC9_ret_underflow : (after (at200 0x00EE)).fault = 5 ∧ (after (at200 0x00EE)).faultPc = 0x200 := by decide
theorem test_VC15_jpV0 : (after (regs 0xBFFF 0xFF 0 0 0)).pc = 0x10FE := by decide
theorem test_seVxNN_equal : (after (regs 0x3000 0 1 1 1)).pc = 0x204 := by decide
theorem test_VC30_skip_from_last_slot :
    (after { State.reset with pc := 0xFFE, mem := [(0xFFE, 0x30)] }).pc = 0x1002 := by decide
theorem test_VC21_sneVxNN : (after ((at200 0x4A05).setV 10 5)).pc = 0x202 := by decide
theorem test_VC24_seVxVy : (after (regs 0x5127 0 0x7F 0x7F 0)).pc = 0x204 := by decide
theorem test_VC28_sneVxVy : (after (regs 0x9120 0 2 2 0)).pc = 0x202 := by decide

/-! ### Steps, arithmetic and logic -/

theorem test_VA2_ldVxNN : (after (at200 0x6F07)).getV 15 = 7 := by decide
theorem test_VA4_addVxNN_wraps : (after (regs 0x7001 0xFF 0 0 0)).getV 0 = 0 ∧
    (after (regs 0x7001 0xFF 0 0 0)).getV 15 = 0 := by decide
theorem test_VA8_ldVxVy : (after (regs 0x8120 0 0 0x33 0)).getV 1 = 0x33 := by decide
theorem test_VA10_orVxVy : (after (regs 0x8121 0 0x0F 0x90 1)).getV 1 = 0x9F ∧
    (after (regs 0x8121 0 0x0F 0x90 1)).getV 15 = 1 := by decide
theorem test_VA11_andVxVy : (after (regs 0x8122 0 0x3C 0x0F 1)).getV 1 = 0x0C ∧
    (after (regs 0x8122 0 0x3C 0x0F 1)).getV 15 = 1 := by decide
theorem test_VA12_xorVxVy : (after (regs 0x8123 0 0xFF 0x0F 1)).getV 1 = 0xF0 ∧
    (after (regs 0x8123 0 0xFF 0x0F 1)).getV 15 = 1 := by decide
theorem test_VA17_addVxVy_sum_255 : (after (regs 0x8014 0x80 0x7F 0 1)).getV 0 = 0xFF ∧
    (after (regs 0x8014 0x80 0x7F 0 1)).getV 15 = 0 := by decide
theorem test_VA20_addVxVy_into_VF : (after (regs 0x8F04 0x20 0 0 0xF0)).getV 15 = 0x10 := by decide
theorem test_VA24_subVxVy_equal : (after (regs 0x8015 7 7 0 0)).getV 0 = 0 ∧
    (after (regs 0x8015 7 7 0 0)).getV 15 = 1 := by decide
theorem test_VA22_subVxVy_borrow : (after (regs 0x8015 5 7 0 1)).getV 0 = 0xFE ∧
    (after (regs 0x8015 5 7 0 1)).getV 15 = 0 := by decide
theorem test_VA29_shrVxVy : (after (regs 0x8126 0 0xAA 5 0)).getV 1 = 2 ∧
    (after (regs 0x8126 0 0xAA 5 0)).getV 15 = 1 := by decide
theorem test_VA32_shrVxVy_from_VF : (after (regs 0x80F6 0 0 0 3)).getV 0 = 1 ∧
    (after (regs 0x80F6 0 0 0 3)).getV 15 = 1 := by decide
theorem test_VA34_subnVxVy : (after (regs 0x8017 5 7 0 0)).getV 0 = 2 ∧
    (after (regs 0x8017 5 7 0 0)).getV 15 = 1 := by decide
theorem test_VA37_subnVxVy_into_VF : (after (regs 0x8F07 1 0 0 2)).getV 15 = 0xFF := by decide
theorem test_VA38_shlVxVy : (after (regs 0x812E 0 0 0x81 0)).getV 1 = 2 ∧
    (after (regs 0x812E 0 0 0x81 0)).getV 15 = 1 := by decide
theorem test_VA41_shlVxVy_into_VF : (after (regs 0x8F0E 0x81 0 0 0)).getV 15 = 2 := by decide
/-- Vector VA44: the mask 0 gives 0 whatever is drawn. -/
theorem test_VA44_rnd : (after (regs 0xC100 0 0x55 0 0)).getV 1 = 0 := by
  show Config.rngByte 0 &&& 0 = 0
  exact BitVec.and_zero

/-! ### Steps, memory and the address register -/

theorem test_VM2_ldINNN : (after { at200 0xAFFF with i := 0x1234 }).i = 0xFFF := by decide
theorem test_VM7_addIVx_wraps : (after { regs 0xF21E 0 0 1 0 with i := 0xFFFF }).i = 0 ∧
    (after { regs 0xF21E 0 0 1 0 with i := 0xFFFF }).getV 15 = 1 := by decide
theorem test_VM5_addIVx_at_the_bound : (after { regs 0xF21E 0 0 0xFF 1 with i := 0xF00 }).i = 0xFFF ∧
    (after { regs 0xF21E 0 0 0xFF 1 with i := 0xF00 }).getV 15 = 0 := by decide
theorem test_VM13_ldFVx : (after (regs 0xF029 0xFF 0 0 0)).i = 0x54B := by decide
theorem test_VM19_ldBVx : (after { regs 0xF033 0x7B 0 0 0 with i := 0xFFD }).mem.readList 0xFFD 3 = [1, 2, 3] := by decide
theorem test_VM20_ldBVx_out : (after { regs 0xF033 0x7B 0 0 0 with i := 0xFFE }).fault = 3 ∧
    (after { regs 0xF033 0x7B 0 0 0 with i := 0xFFE }).mem.readList 0xFFE 2 = [0, 0] := by decide
theorem test_VM23_ldMemVx : (after { regs 0xF255 1 2 3 0 with i := 0x400 }).mem.readList 0x400 4 = [1, 2, 3, 0] ∧
    (after { regs 0xF255 1 2 3 0 with i := 0x400 }).i = 0x403 := by decide
theorem test_VM27_ldMemVx_out : (after { regs 0xF055 0x10 0 0 0 with i := 0x1000 }).fault = 3 := by decide
theorem test_VM31_ldVxMem : (after { at200 0xFF65 with i := 0x50 }).getV 9 = 0x70 ∧
    (after { at200 0xFF65 with i := 0x50 }).getV 15 = 0xF0 ∧ (after { at200 0xFF65 with i := 0x50 }).i = 0x60 := by decide
theorem test_VM30_ldVxMem_out : (after { at200 0xF165 with i := 0xFFF }).fault = 2 ∧
    (after { at200 0xF165 with i := 0xFFF }).faultInfo = 0xFFF := by decide

/-! ### Steps, display -/

/-- `w` at 0x200, the sprite bytes `bs` at 0x20A, `V[0]`, `V[1]`. -/
def sprite (w : Nat) (bs : List Byte) (a b : Byte) : State :=
  { regs w a b 0 0 with i := 0x20A, mem := (at200 w).mem.writeList 0x20A bs }

theorem test_VD1_cls : pixelAt (after { at200 0x00E0 with disp := State.reset.disp.put 31 63 true }) 31 63 = false := by decide
theorem test_VD11_drw_clips : pixelAt (after (sprite 0xD012 [0xFF, 0xFF] 0x3C 0x1F)) 31 63 = true ∧
    pixelAt (after (sprite 0xD012 [0xFF, 0xFF] 0x3C 0x1F)) 31 0 = false ∧
    pixelAt (after (sprite 0xD012 [0xFF, 0xFF] 0x3C 0x1F)) 0 60 = false := by decide
theorem test_VD6_drw_collides :
    (after { sprite 0xD011 [0x80] 0 0 with disp := (State.reset.disp.put 0 0 true).put 0 1 true }).getV 15 = 1 ∧
    pixelAt (after { sprite 0xD011 [0x80] 0 0 with disp := (State.reset.disp.put 0 0 true).put 0 1 true }) 0 1 = true := by
  decide

/-! ### Steps, input -/

theorem test_VI1_skp : (after (hold 10 (regs 0xE19E 0 0x0A 0 0))).pc = 0x204 := by decide
theorem test_VI4_skp_out : (after (hold 0 (regs 0xE19E 0 0x10 0 0))).fault = 6 ∧
    (after (hold 0 (regs 0xE19E 0 0x10 0 0))).faultInfo = 0x10 := by decide
theorem test_VI6_sknp : (after (hold 10 (regs 0xE1A1 0 0x0A 0 0))).pc = 0x202 := by decide
theorem test_VI7_sknp_out : (after (regs 0xE1A1 0 0xFF 0 0)).fault = 6 := by decide
theorem test_VI8_ldVxK : (after (hold 7 (hold 2 (at200 0xF10A)))).getV 1 = 2 ∧
    (after (hold 7 (hold 2 (at200 0xF10A)))).block = false := by decide
theorem test_VI11_blocked_poll : (after (hold 9 { at200 0x6001 with block := true, ir := 0xF10A })).getV 1 = 9 ∧
    (after (hold 9 { at200 0x6001 with block := true, ir := 0xF10A })).pc = 0x200 := by decide

/-! ### Steps, timers; the tick; the fetch bound; the load -/

theorem test_VT1_ldVxDT : (after { at200 0xF207 with dt := 1 }).getV 2 = 1 := by decide
theorem test_VT3_ldDTVx : (after (regs 0xF015 3 0 0 0)).dt = 3 := by decide
theorem test_VT5_ldSTVx : (after (regs 0xF018 0x3C 0 0 0)).st = 0x3C := by decide
/-- 46_timers R191: the meaning, which no word selects by default. -/
theorem test_ldVxST : (done (.ldVxST 3) { State.reset with st := 0x10 }).getV 3 = 0x10 := by decide
theorem test_VT8_tick : (tick { State.reset with st := 1 }).st = 0 ∧ (tick { State.reset with st := 1 }).dt = 0 := by decide
theorem test_VF12_fetch_bound : (after { State.reset with pc := 0xFFF }).fault = 1 ∧
    (after { State.reset with pc := 0xFFF }).faultInfo = 0xFFF := by decide
theorem test_VH1_load : (transact Session.start (.load [0x12, 0x34])).1.core.mem.readList 0x200 2 = [0x12, 0x34] := by decide

/-- 93_implementation_defined A14: a second load is refused and changes nothing. -/
theorem test_second_load_refused : (transact (transact Session.start (.load [0x12, 0x34])).1 (.load [0xFF])).2 = .notAccepted ∧
    (transact (transact Session.start (.load [0x12, 0x34])).1 (.load [0xFF])).1.core.mem.readList 0x200 2 = [0x12, 0x34] := by
  decide

/-! ### Witnesses: the hypotheses of the statements can be met -/

theorem witness_EncodeThenDecode : (Instr.drw 15 15 15).wf none = true ∧ (Instr.ldVxST 15).wf (some 0x00) = true := by decide
theorem witness_NoWordBelongsToTwoRows : ldstLegal none = true ∧ ldstLegal (some 0x75) = true := by decide
theorem witness_UnassignedWords : ldstLegal none = true ∧ ldstLegal (some 0xFF) = true ∧ State.reset.Ready ∧
    decode State.reset.wordAtPc = .nop ∧ decode 0x0123 = .nop ∧ decode 0x801F = .nop ∧ decode 0xE100 = .nop ∧
    decode 0xF300 = .nop := by decide
theorem witness_SoundTimerLoad : ldstLegal (some 0x00) = true ∧ ldstLegal (some 0xFF) = true := by decide
theorem witness_Ready : State.reset.Ready ∧ State.Ready { State.reset with pc := 0xFFE } := by decide

/-- A waiting CORE, and a blocked one with the highest key held. -/
def waiting : State := { State.reset with block := true, ir := 0xF10A, pc := 0x202 }

theorem witness_LowestHeld : (hold 15 waiting).LowestHeld 15 ∧ (hold 9 (hold 0 State.reset)).LowestHeld 0 := by
  unfold State.LowestHeld; decide
theorem witness_CycleWithoutAFetch : State.Faulted { State.reset with fault := 1 } ∧ waiting.fault = 0 ∧ waiting.Waiting ∧
    (hold 15 waiting).block = true ∧ 0x0FFE < (State.pc { State.reset with pc := 0xFFF }).toNat := by decide
theorem witness_FaultingStep :
    step { State.reset with pc := 0x1000 } = .next (faultedFrom { State.reset with pc := 0x1000 } 1 0x1000) ∧
    (faultedFrom { State.reset with pc := 0x1000 } 1 0x1000).fault ≠ 0 := ⟨rfl, by decide⟩

/-- Both sides of every bound of the fault table (60_exceptions R221). -/
theorem witness_FaultTable :
    expectedFault (.ldVxMem 15) { State.reset with i := 0xFF0 } = none ∧
    expectedFault (.ldVxMem 15) { State.reset with i := 0xFF1 } = some (2, 0xFF1) ∧
    expectedFault (.drw 0 0 15) { State.reset with i := 0xFF1 } = none ∧
    expectedFault (.drw 0 0 15) { State.reset with i := 0xFF2 } = some (2, 0xFF2) ∧
    expectedFault (.drw 0 0 0) { State.reset with i := 0xFFFF } = none ∧
    expectedFault (.ldBVx 0) { State.reset with i := 0xFFD } = none ∧
    expectedFault (.ldBVx 0) { State.reset with i := 0xFFE } = some (3, 0xFFE) ∧
    expectedFault (.ldMemVx 0) { State.reset with i := 0xFFF } = none ∧
    expectedFault (.ldMemVx 0) { State.reset with i := 0x1000 } = some (3, 0x1000) ∧
    expectedFault (.call 0) { State.reset with sp := 15 } = none ∧
    expectedFault (.call 0) { State.reset with sp := 16 } = some (4, 16) ∧
    expectedFault .ret { State.reset with sp := 1 } = none ∧
    expectedFault .ret State.reset = some (5, 0) ∧
    expectedFault (.skp 0) (State.reset.setV 0 15) = none ∧
    expectedFault (.skp 0) (State.reset.setV 0 16) = some (6, 16) ∧
    expectedFault (.sknp 0) (State.reset.setV 0 16) = some (6, 16) := by decide

theorem witness_OnlyAResetClearsAFault : State.Faulted { State.reset with fault := 1 } ∧ Transaction.cycle ≠ .reset := by decide
theorem witness_UniformAdvance : expectedFault (.ldVxNN 0 1) State.reset = none ∧
    exec (.ldVxNN 0 1) State.reset = .next (done (.ldVxNN 0 1) State.reset) ∧ (Instr.ldVxNN 0 1).isJump = false ∧
    (Instr.ldVxNN 0 1).isSkip = false ∧ (Instr.seVxNN 0 0).isSkip = true ∧
    exec (.call 0x300) State.reset = .next (done (.call 0x300) State.reset) :=
  ⟨rfl, rfl, rfl, rfl, rfl, rfl⟩
theorem witness_EveryStepKeepsTheInvariant : State.reset.Inv ∧ step State.reset = .next (after State.reset) :=
  ⟨by decide, rfl⟩
theorem witness_InvariantBlocked : waiting.Inv ∧ State.Inv (faultedFrom State.reset 6 0x10) := by decide
theorem witness_CallAndReturn : (State.sp { State.reset with sp := 15 }).val < 16 ∧
    (State.sp { State.reset with sp := 16 }).val = (15 : Fin 16).val + 1 ∧
    (State.sp { State.reset with sp := 1 }).val = (0 : Fin 16).val + 1 := by decide

/-- A call at 0x204 of the return at 0x20A (vector VC13). -/
def calling : State := { State.reset with pc := 0x204, mem := State.reset.mem.writeList 0x204 [0x22, 0x0A, 0, 0, 0, 0, 0x00, 0xEE] }

theorem witness_CallThenReturn : calling.Ready ∧ calling.sp.val < 16 ∧ decode calling.wordAtPc = .call 0x20A ∧
    (0x20A#12).toNat ≤ 0x0FFE ∧ decode (calling.mem.read (0x20A#12).toNat ++ calling.mem.read ((0x20A#12).toNat + 1)) = .ret := by
  decide
theorem witness_FlagDestination : (0 : RegIdx) ≠ 15 ∧ (14 : RegIdx) ≠ 15 := by decide
theorem witness_FontPointer : ((State.reset.setV 0 15).getV 0).toNat ≤ 15 ∧ (4 : Nat) < 5 := by decide
theorem witness_DecimalDigits : (State.i { State.reset with i := 0xFFD }).toNat + 2 ≤ 0x0FFF := by decide
theorem witness_Block : (State.i { State.reset with i := 0xFF0 }).toNat + (15 : RegIdx).toNat ≤ 0x0FFF ∧
    (State.i { State.reset with i := 0xFFF }).toNat + (0 : RegIdx).toNat ≤ 0x0FFF := by decide
theorem witness_StoreThenLoad : (State.i { State.reset with i := 0xFE0 }).toNat + 2 * (15 : RegIdx).toNat + 1 ≤ 0x0FFF ∧
    exec (.ldMemVx 15) { State.reset with i := 0xFE0 } = .next (done (.ldMemVx 15) { State.reset with i := 0xFE0 }) :=
  ⟨by decide, rfl⟩
theorem witness_Draw : ((0 : Nibble) = 0 ∨ (State.i { State.reset with i := 0xFFFF }).toNat + (0 : Nibble).toNat - 1 ≤ 0x0FFF) ∧
    ((15 : Nibble) = 0 ∨ (State.i { State.reset with i := 0xFF1 }).toNat + (15 : Nibble).toNat - 1 ≤ 0x0FFF) := by decide
theorem witness_DrawHit : pixelAt { sprite 0xD011 [0x01] 63 31 with disp := State.reset.disp.put 31 63 true } 31 63 = true ∧
    (sprite 0xD011 [0x80] 63 31).spriteAt 0 1 1 31 63 = true ∧ (sprite 0xD011 [0x01] 63 31).spriteAt 0 1 1 31 63 = false := by
  decide
theorem witness_DrawMiss : ¬ ∃ r c, pixelAt State.reset r c = true ∧ State.reset.spriteAt 0 1 1 r c = true := by
  rintro ⟨r, c, h, _⟩
  have h0 : ∀ r c, pixelAt State.reset r c = false := by decide
  rw [h0 r c] at h
  exact absurd h (by decide)
theorem witness_DrawTwice : (0 : RegIdx) ≠ 15 ∧ (1 : RegIdx) ≠ 15 ∧
    (sprite 0xD011 [0xFF] 0 0).i.toNat + (1 : Nibble).toNat - 1 ≤ 0x0FFF ∧
    ∀ r c, pixelAt (sprite 0xD011 [0xFF] 0 0) r c = false := by decide
theorem witness_KeySkips : ((State.reset.setV 3 15).getV 3).toNat = (15 : Fin 16).val ∧
    (State.reset.getV 3).toNat = (0 : Fin 16).val := by decide
theorem witness_WaitForKey : (hold 15 State.reset).key.get 15 = true ∧ ∀ k : Fin 16, State.reset.key.get k = false := by decide
theorem witness_BlockingStateMachine : State.reset.Ready ∧ decode State.reset.wordAtPc = .nop ∧
    (at200 0xF10A).Ready ∧ decode (at200 0xF10A).wordAtPc = .ldVxK 1 ∧ waiting.fault = 0 ∧ waiting.block = true ∧
    Transaction.tick ≠ .reset ∧ Transaction.tick ≠ .cycle := by decide
theorem witness_TickCommutes : State.reset.Ready ∧ (decode State.reset.wordAtPc).isTimer = false := by decide
theorem witness_KeyEvents : waiting.fault = 0 ∧ waiting.Waiting := by decide
theorem witness_ProgramLoad : Session.start.cycled = false ∧ Session.start.loaded = false ∧ (List.replicate 3584 (0 : Byte)).length ≤ 3584 ∧
    3584 < (List.replicate 3585 (0 : Byte)).length ∧ (transact Session.start .cycle).1.cycled = true ∧
    (transact Session.start (.load [0x12])).1.loaded = true := by
  refine ⟨rfl, rfl, ?_, ?_, by decide, by decide⟩ <;> rw [List.length_replicate]
  decide
theorem witness_OwnWriters : exec .cls State.reset = .next (done .cls State.reset) ∧ Instr.jp 0 ≠ .cls := ⟨rfl, by decide⟩
theorem witness_FlagWriters : exec (.addVxVy 0 1) State.reset = .next (done (.addVxVy 0 1) State.reset) ∧
    (Instr.addVxVy 0 1).writesFlag = true ∧ ¬ (Instr.addVxVy 0 1).isDest 15 ∧
    expectedFault (.addVxVy 0 1) State.reset = none := by
  refine ⟨rfl, rfl, ?_, rfl⟩
  show ¬ (15 : RegIdx) = 0
  decide
theorem witness_Quiescent : State.Faulted { State.reset with fault := 6 } ∧ waiting.Waiting ∧ (at200 0x1200).SelfLoop := by decide
theorem witness_InstructionRegister : waiting.block = true ∧
    (0x61FF#16).extractLsb' 8 4 = waiting.ir.extractLsb' 8 4 := by decide
theorem witness_CanonicalMemories : Memory.wf [(0x050, 0x00), (0xFFF, 0x01)] = true ∧ Memory.wf [(0x050, 0xF0)] = false ∧
    Memory.wf [(0x200, 0x01), (0x200, 0x02)] = false := by decide
theorem witness_UnloadedCore : (1792 : Nat) ≤ 1792 ∧ (1793 : Nat) ≤ 1793 := by decide

end Sys2Proof.Tests
end

