-- ==== Sys2Proof/Proofs/UnassignedWords.lean ====
section
/-! PROOF. The words that are no-ops (30_encoding R77), read off the two-level dispatch: which sub-opcodes fall through under each
keyed selector, that no other selector falls through, and what the no-op does. -/

namespace Sys2Proof

/-! ### The sub-opcodes that fall through, selector by selector -/

/-- One arm of a dispatch on sub-opcodes: only a word the arm does not take can reach the no-op below it. -/
theorem ite_eq_nop_iff {c : Prop} [Decidable c] {i j : Instr} (hi : i ≠ .nop) :
    (if c then i else j) = .nop ↔ ¬ c ∧ j = .nop := by
  by_cases hc : c
  · simp [hc, hi]
  · simp [hc]

theorem decodeSel0_eq_nop_iff (w : Word) : decodeSel0 w = .nop ↔ nnOf w ≠ 0xE0 ∧ nnOf w ≠ 0xEE := by
  simp [decodeSel0, ite_eq_nop_iff]

theorem decodeSelE_eq_nop_iff (w : Word) : decodeSelE w = .nop ↔ nnOf w ≠ 0x9E ∧ nnOf w ≠ 0xA1 := by
  simp [decodeSelE, ite_eq_nop_iff]

/-- The nine arms leave seven of the sixteen low nibbles. -/
theorem decodeSel8_eq_nop_iff (w : Word) :
    decodeSel8 w = .nop ↔ nOf w ∈ [0x8#4, 0x9#4, 0xA#4, 0xB#4, 0xC#4, 0xD#4, 0xF#4] := by
  have left : ∀ n : Nibble,
      (n ≠ 0x0 ∧ n ≠ 0x1 ∧ n ≠ 0x2 ∧ n ≠ 0x3 ∧ n ≠ 0x4 ∧ n ≠ 0x5 ∧ n ≠ 0x6 ∧ n ≠ 0x7 ∧ n ≠ 0xE) ↔
        n ∈ [0x8#4, 0x9#4, 0xA#4, 0xB#4, 0xC#4, 0xD#4, 0xF#4] := by decide
  rw [← left]
  simp [decodeSel8, ite_eq_nop_iff]

theorem decodeSelF_eq_nop_iff (ldst : Option Byte) (w : Word) :
    decodeSelF ldst w = .nop ↔ nnOf w ∉ assignedF ∧ ldst ≠ some (nnOf w) := by
  simp [decodeSelF, ite_eq_nop_iff, assignedF, and_assoc]

/-! ### The primary selection -/

/-- Only the four keyed selectors can give the no-op; each then leaves it to its own dispatch. The decoder's last arm is selector
0xF because it is the one value the fifteen arms above it leave. -/
theorem decodeWith_eq_nop_iff (ldst : Option Byte) (w : Word) :
    decodeWith ldst w = .nop ↔
      (selOf w = 0x0 ∧ decodeSel0 w = .nop) ∨ (selOf w = 0x8 ∧ decodeSel8 w = .nop) ∨
      (selOf w = 0xE ∧ decodeSelE w = .nop) ∨ (selOf w = 0xF ∧ decodeSelF ldst w = .nop) := by
  unfold decodeWith
  split
  case h_16 h0 h1 h2 h3 h4 h5 h6 h7 h8 h9 hA hB hC hD hE =>
    have hF : selOf w = 0xF := by
      revert h0 h1 h2 h3 h4 h5 h6 h7 h8 h9 hA hB hC hD hE
      generalize selOf w = sel
      revert sel
      decide
    simp [hF]
  all_goals
    rename_i hsel
    simp [hsel]

end Sys2Proof

namespace Sys2Proof.Machine

/-- 40_fetch_dispatch R96. -/
theorem exec_nop (s : State) : exec .nop s = .next s.advance := rfl

/-- An instruction that answered a state without a fault retires with its word in `IR` (40_fetch_dispatch R91). -/
theorem retire_next_of_no_fault (w : Word) {t : State} (h : t.fault = 0) : retire w (.next t) = .next { t with ir := w } :=
  congrArg Host.Outcome.next (if_pos h)

/-- A cycle that fetches a no-op advances `pc` and latches the word. -/
theorem step_of_decode_nop {s : State} (h : s.Ready) (hn : decode s.wordAtPc = .nop) :
    step s = .next { s.advance with ir := s.wordAtPc } := by
  have hfault : s.advance.fault = 0 := h.left
  rw [step_ready s h, hn, exec_nop, retire_next_of_no_fault _ hfault]

/-- Settles O4: the dispatch falls through exactly on the sub-opcodes R77 lists, and the no-op is the bare advance. -/
theorem unassignedWordsAreNops : Obligations.UnassignedWordsAreNops := by
  refine ⟨fun ldst w _ => ?_, fun s => ⟨_, exec_nop s, rfl⟩, fun s hready hnop => step_of_decode_nop hready hnop⟩
  rw [decodeWith_eq_nop_iff, decodeSel0_eq_nop_iff, decodeSel8_eq_nop_iff, decodeSelE_eq_nop_iff, decodeSelF_eq_nop_iff]
  rfl

end Sys2Proof.Machine
end

