-- ==== Sys2Proof/Proofs/JumpsAndSkips.lean ====
section
/-! PROOF. `JP NNN` and the four skips that compare a register (41_control_flow R100, R104 to R107): the words that decode to them
and what each answers. A skip's two outcomes and its frame are proved once for a test of equality and once for a test of
difference, for whatever the two compared bytes are. -/

namespace Sys2Proof

/-! ### The words (30_encoding R74): the selector picks the arm, and the arm's fields read back what was laid out -/

theorem decode_jp_word (nnn : Addr12) : decode (0x1#4 ++ nnn) = .jp nnn := by
  simp [decode, decodeWith]

theorem decode_seVxNN_word (x : RegIdx) (nn : Byte) : decode (0x3#4 ++ x ++ nn) = .seVxNN x nn := by
  simp [decode, decodeWith]

theorem decode_sneVxNN_word (x : RegIdx) (nn : Byte) : decode (0x4#4 ++ x ++ nn) = .sneVxNN x nn := by
  simp [decode, decodeWith]

/-- The low nibble is ignored (30_encoding R76). -/
theorem decode_seVxVy_word (x y : RegIdx) (n : Nibble) : decode (0x5#4 ++ x ++ y ++ n) = .seVxVy x y := by
  simp [decode, decodeWith]

/-- The low nibble is ignored (30_encoding R76). -/
theorem decode_sneVxVy_word (x y : RegIdx) (n : Nibble) : decode (0x9#4 ++ x ++ y ++ n) = .sneVxVy x y := by
  simp [decode, decodeWith]

end Sys2Proof

namespace Sys2Proof.Machine

/-! ### The jump -/

theorem exec_jp (nnn : Addr12) (s : State) : exec (.jp nnn) s = .next { s.advance with pc := addrImm nnn } := rfl

theorem addrImm_toNat (nnn : Addr12) : (addrImm nnn).toNat = nnn.toNat :=
  BitVec.toNat_setWidth_of_le (by decide)

/-- Settles O19: the target replaces the advanced `pc`, and the advance writes nothing else. -/
theorem jumpGoesToItsImmediate : Obligations.JumpGoesToItsImmediate := fun nnn =>
  ⟨decode_jp_word nnn, fun s =>
    ⟨_, exec_jp nnn s, addrImm_toNat nnn, fun _ => rfl, by apply allButRegsKept_of_eq <;> rfl⟩⟩

/-! ### The skips -/

/-- An instruction whose meaning is the advance and a skip where two bytes are equal. -/
theorem exec_skip_of_beq {i : Instr} {s : State} {a b : Byte} (h : exec i s = .next (s.advance.skipIf (a == b))) :
    ∃ t, exec i s = .next t ∧ t.pc = (if a = b then s.pc + 4 else s.pc + 2) ∧ RegsKept s t ∧ AllButRegsKept s t := by
  obtain ⟨hpc, hregs, hrest⟩ := advance_skipIf_frame s (a == b)
  exact ⟨_, h, by simpa using hpc, hregs, hrest⟩

/-- An instruction whose meaning is the advance and a skip where two bytes differ. -/
theorem exec_skip_of_bne {i : Instr} {s : State} {a b : Byte} (h : exec i s = .next (s.advance.skipIf (a != b))) :
    ∃ t, exec i s = .next t ∧ t.pc = (if a = b then s.pc + 2 else s.pc + 4) ∧ RegsKept s t ∧ AllButRegsKept s t := by
  obtain ⟨hpc, hregs, hrest⟩ := advance_skipIf_frame s (a != b)
  exact ⟨_, h, by simpa using hpc, hregs, hrest⟩

theorem exec_seVxNN (x : RegIdx) (nn : Byte) (s : State) :
    exec (.seVxNN x nn) s = .next (s.advance.skipIf (s.getV x == nn)) := rfl

theorem exec_sneVxNN (x : RegIdx) (nn : Byte) (s : State) :
    exec (.sneVxNN x nn) s = .next (s.advance.skipIf (s.getV x != nn)) := rfl

theorem exec_seVxVy (x y : RegIdx) (s : State) :
    exec (.seVxVy x y) s = .next (s.advance.skipIf (s.getV x == s.getV y)) := rfl

theorem exec_sneVxVy (x y : RegIdx) (s : State) :
    exec (.sneVxVy x y) s = .next (s.advance.skipIf (s.getV x != s.getV y)) := rfl

/-- Settles O24: both words, and each meaning is a skip on the comparison of `V[X]` with the immediate. -/
theorem skipsAgainstAnImmediate : Obligations.SkipsAgainstAnImmediate := fun x nn =>
  ⟨decode_seVxNN_word x nn, decode_sneVxNN_word x nn, fun s =>
    ⟨exec_skip_of_beq (exec_seVxNN x nn s), exec_skip_of_bne (exec_sneVxNN x nn s)⟩⟩

/-- Settles O25: both words for every low nibble, and each meaning is a skip on the comparison of `V[X]` with `V[Y]`. -/
theorem skipsAgainstARegister : Obligations.SkipsAgainstARegister := fun x y =>
  ⟨fun n => ⟨decode_seVxVy_word x y n, decode_sneVxVy_word x y n⟩, fun s =>
    ⟨exec_skip_of_beq (exec_seVxVy x y s), exec_skip_of_bne (exec_sneVxVy x y s)⟩⟩

end Sys2Proof.Machine
end

