-- ==== Sys2Proof/Proofs/LoadCopyAddImmediate.lean ====
section
/-! PROOF. `LD Vx, NN`, `ADD Vx, NN` and `LD Vx, Vy` (42_alu R120, R121, R123): the words that decode to them and what each answers.
All three are the advance and one register write, so the result and the frame are proved once for whatever byte is written; the
property of two immediate adds is that a later write to the same register is the one that stands. -/

namespace Sys2Proof

/-! ### The words (30_encoding R74) -/

theorem decode_ldVxNN_word (x : RegIdx) (nn : Byte) : decode (0x6#4 ++ x ++ nn) = .ldVxNN x nn := by
  simp [decode, decodeWith]

theorem decode_addVxNN_word (x : RegIdx) (nn : Byte) : decode (0x7#4 ++ x ++ nn) = .addVxNN x nn := by
  simp [decode, decodeWith]

/-- The low nibble 0 picks the first arm under selector 0x8. -/
theorem decode_ldVxVy_word (x y : RegIdx) : decode (0x8#4 ++ x ++ y ++ 0x0#4) = .ldVxVy x y := by
  simp [decode, decodeWith, decodeSel8]

end Sys2Proof

namespace Sys2Proof.Machine

/-! ### One register write -/

theorem exec_ldVxNN (x : RegIdx) (nn : Byte) (s : State) : exec (.ldVxNN x nn) s = .next (s.advance.setV x nn) := rfl

theorem exec_addVxNN (x : RegIdx) (nn : Byte) (s : State) :
    exec (.addVxNN x nn) s = .next (s.advance.setV x (s.getV x + nn)) := rfl

theorem exec_ldVxVy (x y : RegIdx) (s : State) : exec (.ldVxVy x y) s = .next (s.advance.setV x (s.getV y)) := rfl

/-- An instruction whose meaning is the advance and the write of one register. -/
theorem exec_write_of_setV {i : Instr} {s : State} {x : RegIdx} {b : Byte} (h : exec i s = .next (s.advance.setV x b)) :
    ∃ t, exec i s = .next t ∧ t.getV x = b ∧ RegsKeptBut (· = x) s t ∧ t.pc = s.pc + 2 ∧ AllButRegsKept s t :=
  ⟨_, h, advance_setV_frame s x b⟩

/-- Settles O26: the immediate is the byte written. -/
theorem loadImmediateWritesTheRegister : Obligations.LoadImmediateWritesTheRegister := fun x nn =>
  ⟨decode_ldVxNN_word x nn, fun s => exec_write_of_setV (exec_ldVxNN x nn s)⟩

/-- Settles O28: the source register, read before the write, is the byte written. -/
theorem copyWritesTheSourceRegister : Obligations.CopyWritesTheSourceRegister := fun x y =>
  ⟨decode_ldVxVy_word x y, fun s => exec_write_of_setV (exec_ldVxVy x y s)⟩

/-! ### Two immediate adds -/

/-- Of two advances that each write the same register, the second write stands, and no other register changes. -/
theorem regsKept_setV_setV (s : State) (x : RegIdx) (a b : Byte) :
    RegsKept ((s.advance.setV x a).advance.setV x b) (s.advance.setV x b) := by
  intro r
  by_cases hr : r = x
  · subst hr; simp
  · simp [State.getV_setV_ne, hr]

/-- Two sums modulo 256 are one sum with the second byte and the third added first. -/
theorem add_add_eq_add_ofNat (v nn mm : Byte) : v + nn + mm = v + BitVec.ofNat 8 (nn.toNat + mm.toNat) := by
  simp [BitVec.ofNat_add, BitVec.add_assoc]

/-- R121's property: an immediate add after an immediate add leaves the registers one add of the sum modulo 256 leaves. -/
theorem regsKept_addVxNN_addVxNN (x : RegIdx) (nn mm : Byte) (s : State) :
    ∃ u u', exec (.addVxNN x mm) (s.advance.setV x (s.getV x + nn)) = .next u ∧
      exec (.addVxNN x (BitVec.ofNat 8 (nn.toNat + mm.toNat))) s = .next u' ∧ RegsKept u u' := by
  refine ⟨_, _, exec_addVxNN .., exec_addVxNN .., ?_⟩
  rw [State.getV_setV_same, add_add_eq_add_ofNat]
  exact regsKept_setV_setV s x _ _

/-- Settles O27: the word, the sum of bytes as a sum modulo 256, the frame of a register write, and the two adds. -/
theorem addImmediateWrapsAndComposes : Obligations.AddImmediateWrapsAndComposes := fun x nn =>
  ⟨decode_addVxNN_word x nn, fun s =>
    have ⟨hval, hregs, hpc, hrest⟩ := advance_setV_frame s x (s.getV x + nn)
    ⟨_, exec_addVxNN x nn s, by rw [hval, BitVec.toNat_add], hregs, hpc, hrest, fun mm => regsKept_addVxNN_addVxNN x nn mm s⟩⟩

end Sys2Proof.Machine
end

