-- ==== Sys2Proof/Proofs/LoadAddressRegister.lean ====
section
/-! PROOF. `LD I, NNN` (43_memory_index R150): the word that decodes to it and what it answers. The meaning is the advance and a
write of `I`, and such a write leaves everything but `I` and `pc` as it was, whatever word is written. -/

namespace Sys2Proof

theorem decode_ldINNN_word (nnn : Addr12) : decode (0xA#4 ++ nnn) = .ldINNN nnn := by
  simp [decode, decodeWith]

end Sys2Proof

namespace Sys2Proof.Machine

theorem exec_ldINNN (nnn : Addr12) (s : State) : exec (.ldINNN nnn) s = .next { s.advance with i := addrImm nnn } := rfl

/-- An instruction whose meaning is the advance and the write of `I`. -/
theorem exec_write_of_i {i : Instr} {s : State} {a : Word} (h : exec i s = .next { s.advance with i := a }) :
    ∃ t, exec i s = .next t ∧ t.i = a ∧ t.pc = s.pc + 2 ∧ RegsKept s t ∧
      StackKept s t ∧ MemKept s t ∧ ScreenKept s t ∧ KeysKept s t ∧ TimersKept s t ∧ ControlKept s t :=
  ⟨_, h, rfl, s.advance_pc, s.advance_getV, ⟨rfl, rfl⟩, fun _ => rfl, fun _ _ => rfl, rfl, ⟨rfl, rfl⟩, rfl, rfl, rfl, rfl, rfl⟩

/-- Settles O34: the word, the immediate zero-extended into `I`, and the frame of a write of `I`. -/
theorem loadAddressRegisterImmediate : Obligations.LoadAddressRegisterImmediate := fun nnn =>
  ⟨decode_ldINNN_word nnn, fun s =>
    have ⟨t, hexec, hi, hframe⟩ := exec_write_of_i (exec_ldINNN nnn s)
    ⟨t, hexec, by rw [hi, addrImm_toNat], hframe⟩⟩

end Sys2Proof.Machine
end

