-- ==== Sys2Proof/Proofs/ClearAndDraw.lean ====
section
/-! PROOF. `CLS` and `DRW Vx, Vy, N` (44_display R170 to R173): the words that decode to `CLS` and what each instruction answers.
What a draw composes is said by `drawn_pixel` and `drawn_collision`; here are the frames of the two writes, of the display alone
and of the display with VF, whatever is written. -/

namespace Sys2Proof

/-- Bits 11:8 are ignored (30_encoding R76). -/
theorem decode_cls_word (b : BitVec 4) : decode (0x0#4 ++ b ++ 0xE0#8) = .cls := by
  simp [decode, decodeWith, decodeSel0]

end Sys2Proof

namespace Sys2Proof.Machine

/-! ### Clear-screen -/

theorem exec_cls (s : State) : exec .cls s = .next { s.advance with disp := Display.clear } := rfl

/-- The advance and a write of the display. -/
theorem advance_disp_frame (s : State) (d : Display) :
    let t : State := { s.advance with disp := d }
    RegsKept s t ∧ t.i = s.i ∧ t.pc = s.pc + 2 ∧ StackKept s t ∧ MemKept s t ∧ KeysKept s t ∧ TimersKept s t ∧
      ControlKept s t :=
  ⟨s.advance_getV, rfl, s.advance_pc, ⟨rfl, rfl⟩, fun _ => rfl, rfl, ⟨rfl, rfl⟩, rfl, rfl, rfl, rfl, rfl⟩

/-- Settles O41: the display written is the empty one, and the advance and a write of the display keep everything else. -/
theorem clearScreenClearsEveryPixel : Obligations.ClearScreenClearsEveryPixel :=
  ⟨decode_cls_word, fun s =>
    ⟨_, exec_cls s, fun r c => Display.get_clear r c, advance_disp_frame s Display.clear⟩⟩

/-! ### Draw-sprite -/

/-- The advance, a flag in VF and a write of the display. -/
theorem advance_setFlag_disp_frame (s : State) (f : Bool) (d : Display) :
    let t : State := { s.advance.setFlag f with disp := d }
    RegsKeptBut (· = 15) s t ∧ t.i = s.i ∧ t.pc = s.pc + 2 ∧ StackKept s t ∧ MemKept s t ∧ KeysKept s t ∧
      TimersKept s t ∧ ControlKept s t :=
  ⟨fun r hr => (State.getV_setFlag s.advance f r).trans (if_neg hr), rfl, s.advance_pc, ⟨rfl, rfl⟩, fun _ => rfl, rfl,
    ⟨rfl, rfl⟩, rfl, rfl, rfl, rfl, rfl⟩

/-- VF after a flag and a write of the display: the latter touches no register. -/
theorem getV_flag_setFlag_disp (s : State) (f : Bool) (d : Display) :
    ({ s.setFlag f with disp := d } : State).getV 15 = flagByte f :=
  (State.getV_setFlag s f 15).trans (if_pos rfl)

/-- Settles O42: in range, a draw writes the display and the collision its loops compose, and these are the clipped xor and
whether a set pixel meets a set sprite bit. -/
theorem drawIsTheXorOfTheClippedSprite : Obligations.DrawIsTheXorOfTheClippedSprite := by
  intro x y n s hrange
  refine ⟨_, execDrw_eq x y n s hrange, drawn_pixel x y n s, fun hhit => ?hit, fun hmiss => ?miss,
    advance_setFlag_disp_frame s _ _⟩
  case hit =>
    have hcollision : (drawn x y n s).2 = true := (drawn_collision x y n s).mpr hhit
    rw [getV_flag_setFlag_disp, hcollision]
    rfl
  case miss =>
    have hcollision : (drawn x y n s).2 = false := Bool.eq_false_iff.mpr (mt (drawn_collision x y n s).mp hmiss)
    rw [getV_flag_setFlag_disp, hcollision]
    rfl

end Sys2Proof.Machine
end

