-- ==== Sys2Proof/Proofs/WaitForKey.lean ====
section
/-! PROOF. `LD Vx, K` (45_input R182, R185): the word that decodes to it and what it answers. The meaning is the advance and one
poll of the keys; what a poll writes with a key held, what it writes with none, and what it keeps in both cases are each proved once,
for whatever state is polled. -/

namespace Sys2Proof

/-- The low byte 0x0A picks the second arm under selector 0xF. -/
theorem decode_ldVxK_word (x : RegIdx) : decode (0xF#4 ++ x ++ 0x0A#8) = .ldVxK x := by
  simp [decode, decodeWith, decodeSelF]

end Sys2Proof

namespace Sys2Proof.Machine

/-! ### One poll of the keys -/

/-- With a key held, a poll clears BLOCK and writes the lowest held key to the destination and to no other register. -/
theorem waitKey_writes_of_held {s : State} {k : Fin 16} (x : RegIdx) (h : s.LowestHeld k) :
    (s.waitKey x).block = false ∧ (s.waitKey x).getV x = BitVec.ofNat 8 k.val ∧ RegsKeptBut (· = x) s (s.waitKey x) := by
  rw [s.waitKey_held x k h]
  exact ⟨rfl, State.getV_setV_same _ x _, fun _ hr => State.getV_setV_ne _ _ hr⟩

/-- With no key held, a poll sets BLOCK and writes no register. -/
theorem waitKey_writes_of_none {s : State} (x : RegIdx) (h : ∀ k : Fin 16, s.key.get k = false) :
    (s.waitKey x).block = true ∧ RegsKept s (s.waitKey x) := by
  rw [s.waitKey_none x h]
  exact ⟨rfl, fun _ => rfl⟩

/-- Held key or not, a poll keeps everything but BLOCK and the registers. -/
theorem waitKey_frame (s : State) (x : RegIdx) :
    let t := s.waitKey x
    t.pc = s.pc ∧ t.i = s.i ∧ StackKept s t ∧ MemKept s t ∧ ScreenKept s t ∧ KeysKept s t ∧ TimersKept s t ∧ t.ir = s.ir ∧
      FaultKept s t := by
  simp [StackKept, MemKept, ScreenKept, pixelAt, KeysKept, TimersKept, FaultKept]

/-- The key a poll writes fits a byte. -/
theorem toNat_ofNat_key (k : Fin 16) : (BitVec.ofNat 8 k.val).toNat = k.val :=
  Nat.mod_eq_of_lt (by omega)

/-! ### The instruction -/

theorem exec_ldVxK (x : RegIdx) (s : State) : exec (.ldVxK x) s = .next (s.advance.waitKey x) := rfl

/-- Settles O45: the word, and a poll of the advanced state, whose keys and registers are those of `s` and whose `pc` is
`s.pc + 2`. -/
theorem waitForKeyTakesTheLowestHeldKey : Obligations.WaitForKeyTakesTheLowestHeldKey := by
  refine fun x => ⟨decode_ldVxK_word x, fun s => ⟨fun k hk => ?held, fun hnone => ?none⟩⟩
  case held =>
    have hadv : s.advance.LowestHeld k := hk
    obtain ⟨hblock, hval, hregs⟩ := waitKey_writes_of_held x hadv
    exact ⟨_, exec_ldVxK x s, hblock, by rw [hval, toNat_ofNat_key], hregs, waitKey_frame s.advance x⟩
  case none =>
    have hadv : ∀ k : Fin 16, s.advance.key.get k = false := hnone
    obtain ⟨hblock, hregs⟩ := waitKey_writes_of_none x hadv
    exact ⟨_, exec_ldVxK x s, hblock, hregs, waitKey_frame s.advance x⟩

end Sys2Proof.Machine
end

