-- ==== Sys2Proof/Proofs/Timers.lean ====
section
/-! PROOF. The tick and the timer instructions (46_timers R190, R192 to R195). A tick takes 1 from each timer in the natural numbers,
where 0 - 1 is 0; so `n` ticks take `n`, by one induction for either timer. A timer load is the advance and either a register write or
a write of a timer, whose frame is proved once for whatever both timers hold after it. -/

namespace Sys2Proof

/-! ### The words (30_encoding R74): the low byte picks the arm under selector 0xF -/

theorem decode_ldVxDT_word (x : RegIdx) : decode (0xF#4 ++ x ++ 0x07#8) = .ldVxDT x := by
  simp [decode, decodeWith, decodeSelF]

theorem decode_ldDTVx_word (x : RegIdx) : decode (0xF#4 ++ x ++ 0x15#8) = .ldDTVx x := by
  simp [decode, decodeWith, decodeSelF]

theorem decode_ldSTVx_word (x : RegIdx) : decode (0xF#4 ++ x ++ 0x18#8) = .ldSTVx x := by
  simp [decode, decodeWith, decodeSelF]

end Sys2Proof

namespace Sys2Proof.Machine

/-! ### One tick -/

/-- The decrement that leaves 0 alone is the truncated subtraction of the natural numbers. -/
theorem decrement_eq_ofNat_sub_one (b : Byte) : (if b ≠ 0 then b - 1 else b) = BitVec.ofNat 8 (b.toNat - 1) := by
  by_cases hb : b = 0
  · subst hb; rfl
  · rw [if_pos hb]
    bv_omega

/-- 46_timers R195: what a tick does to each timer, and that it changes nothing else. -/
theorem tick_eq (s : State) :
    tick s = { s with dt := BitVec.ofNat 8 (s.dt.toNat - 1), st := BitVec.ofNat 8 (s.st.toNat - 1) } := by
  rw [← decrement_eq_ofNat_sub_one, ← decrement_eq_ofNat_sub_one]
  rfl

theorem toNat_ofNat_sub_one (b : Byte) : (BitVec.ofNat 8 (b.toNat - 1)).toNat = b.toNat - 1 :=
  Nat.mod_eq_of_lt (by omega)

theorem tick_dt_toNat (s : State) : (tick s).dt.toNat = s.dt.toNat - 1 := by
  rw [tick_eq, toNat_ofNat_sub_one]

theorem tick_st_toNat (s : State) : (tick s).st.toNat = s.st.toNat - 1 := by
  rw [tick_eq, toNat_ofNat_sub_one]

/-! ### Many ticks and the sound gate -/

/-- What loses 1 at every tick, down to 0, loses `n` over `n` ticks, down to 0. -/
theorem iterate_tick_toNat {timer : State → Byte} (h : ∀ s, (timer (tick s)).toNat = (timer s).toNat - 1) (n : Nat) (s : State) :
    (timer (tick^[n] s)).toNat = (timer s).toNat - n := by
  induction n with
  | zero => rfl
  | succ n ih => rw [Function.iterate_succ_apply', h, ih, Nat.sub_sub]

/-- 46_timers R194. -/
theorem isSoundActive_iff (s : State) : isSoundActive s = true ↔ 0 < s.st.toNat := by
  rw [isSoundActive, bne_iff_ne, ← BitVec.toNat_ne_iff_ne]
  exact Nat.pos_iff_ne_zero.symm

/-- Settles O48: each timer by induction on the ticks, and the gate by what `ST` then holds. -/
theorem ticksCountBothTimersDownToZero : Obligations.TicksCountBothTimersDownToZero := by
  refine fun s => ⟨tick_eq s, fun n => ?_⟩
  have hdt : (tick^[n] s).dt.toNat = s.dt.toNat - n := iterate_tick_toNat tick_dt_toNat n s
  have hst : (tick^[n] s).st.toNat = s.st.toNat - n := iterate_tick_toNat tick_st_toNat n s
  have hgate : isSoundActive (tick^[n] s) = true ↔ n < s.st.toNat := by
    rw [isSoundActive_iff, hst, Nat.sub_pos_iff_lt]
  exact ⟨hdt, hst, hgate⟩

/-! ### The timer instructions -/

theorem exec_ldVxDT (x : RegIdx) (s : State) : exec (.ldVxDT x) s = .next (s.advance.setV x s.dt) := rfl

theorem exec_ldDTVx (x : RegIdx) (s : State) : exec (.ldDTVx x) s = .next { s.advance with dt := s.getV x } := rfl

theorem exec_ldSTVx (x : RegIdx) (s : State) : exec (.ldSTVx x) s = .next { s.advance with st := s.getV x } := rfl

/-- The advance and a write of the timers. -/
theorem advance_timers_frame (s : State) (d e : Byte) :
    let t : State := { s.advance with dt := d, st := e }
    RegsKept s t ∧ t.pc = s.pc + 2 ∧ t.i = s.i ∧ StackKept s t ∧ MemKept s t ∧ ScreenKept s t ∧ KeysKept s t ∧
      ControlKept s t :=
  ⟨s.advance_getV, s.advance_pc, rfl, ⟨rfl, rfl⟩, fun _ => rfl, fun _ _ => rfl, rfl, rfl, rfl, rfl, rfl, rfl⟩

/-- Settles O47: the three words, a register write of `DT`, and a write of one timer with the other as it was. -/
theorem timerLoadsCopyBetweenRegisterAndCounter : Obligations.TimerLoadsCopyBetweenRegisterAndCounter := fun x =>
  ⟨decode_ldVxDT_word x, decode_ldDTVx_word x, decode_ldSTVx_word x, fun s =>
    ⟨exec_write_of_setV (exec_ldVxDT x s),
      ⟨_, exec_ldDTVx x s, rfl, rfl, advance_timers_frame s (s.getV x) s.st⟩,
      ⟨_, exec_ldSTVx x s, rfl, rfl, advance_timers_frame s s.dt (s.getV x)⟩⟩⟩

end Sys2Proof.Machine
end

