-- ==== Sys2Proof/Proofs/Completion.lean ====
section
/-! PROOF. What an instruction answers, said once for all 36: the state a fault leaves where the fault table names one, and else its
completed state. The completed state is written with the total forms of push, pop and the key lookup, so that each of its fields is
read off by one case split over the instructions; the whole-machine rules follow from these fields. -/

namespace Sys2Proof.Machine

/-- The state an instruction leaves where it does not fault. -/
def completed (i : Instr) (s : State) : State :=
  match i with
  | .cls => { s.advance with disp := Display.clear }
  | .ret => { s.advance with sp := ⟨s.sp.val - 1, by omega⟩, pc := s.stk[s.sp.val - 1]'(by omega) }
  | .jp nnn => { s.advance with pc := addrImm nnn }
  | .call nnn =>
    { s.advance with
      stk := if h : s.sp.val < 16 then s.stk.set s.sp.val (s.pc + 2) h else s.stk
      sp := s.sp + 1
      pc := addrImm nnn }
  | .jpV0 nnn => { s.advance with pc := addrImm nnn + byteImm (s.getV 0) }
  | .seVxNN x nn => s.advance.skipIf (s.getV x == nn)
  | .sneVxNN x nn => s.advance.skipIf (s.getV x != nn)
  | .seVxVy x y => s.advance.skipIf (s.getV x == s.getV y)
  | .sneVxVy x y => s.advance.skipIf (s.getV x != s.getV y)
  | .skp x => s.advance.skipIf (s.keyNamed (s.getV x) == some true)
  | .sknp x => s.advance.skipIf (s.keyNamed (s.getV x) == some false)
  | .ldVxNN x nn => s.advance.setV x nn
  | .addVxNN x nn => s.advance.setV x (s.getV x + nn)
  | .ldVxVy x y => s.advance.setV x (s.getV y)
  | .orVxVy x y => s.advance.setV x (s.getV x ||| s.getV y)
  | .andVxVy x y => s.advance.setV x (s.getV x &&& s.getV y)
  | .xorVxVy x y => s.advance.setV x (s.getV x ^^^ s.getV y)
  | .addVxVy x y => s.advance.writeFlagResult x (carryOut (s.getV x) (s.getV y)) (s.getV x + s.getV y)
  | .subVxVy x y => s.advance.writeFlagResult x (noBorrow (s.getV x) (s.getV y)) (s.getV x - s.getV y)
  | .shrVxVy x y => s.advance.writeFlagResult x (shiftedOutRight (s.getV y)) (s.getV y >>> 1)
  | .subnVxVy x y => s.advance.writeFlagResult x (noBorrow (s.getV y) (s.getV x)) (s.getV y - s.getV x)
  | .shlVxVy x y => s.advance.writeFlagResult x (shiftedOutLeft (s.getV y)) (s.getV y <<< 1)
  | .rnd x nn => s.advance.drawByte.2.setV x (Config.rngByte s.draws &&& nn)
  | .ldINNN nnn => { s.advance with i := addrImm nnn }
  | .addIVx x => { s.advance.setFlag (leavesRange s.i (s.getV x)) with i := s.i + byteImm (s.getV x) }
  | .ldFVx x => { s.advance with i := glyphAddr (s.getV x) }
  | .ldBVx x => { s.advance with mem := s.mem.writeList s.i.toNat (decimalDigits (s.getV x)) }
  | .ldMemVx x =>
    { s.advance with mem := s.mem.writeList s.i.toNat (s.block0To x), i := s.i + BitVec.ofNat 16 (blockLen x) }
  | .ldVxMem x =>
    { s.advance with v := loadBlock s.mem s.i.toNat x s.v, i := s.i + BitVec.ofNat 16 (blockLen x) }
  | .drw x y n => { s.advance.setFlag (drawn x y n s).2 with disp := (drawn x y n s).1 }
  | .ldVxK x => s.advance.waitKey x
  | .ldVxDT x => s.advance.setV x s.dt
  | .ldVxST x => s.advance.setV x s.st
  | .ldDTVx x => { s.advance with dt := s.getV x }
  | .ldSTVx x => { s.advance with st := s.getV x }
  | .nop => s.advance

/-! ### The fault table decides which of the two states an instruction answers -/

/-- The table's test of the full stack, as the push asks it. -/
theorem sp_eq_sixteen_iff (s : State) : s.sp = 16 ↔ ¬ s.sp.val < 16 := by
  rw [Fin.ext_iff, show ((16 : Fin 17) : Nat) = 16 from rfl]
  omega

/-- The table's test of the empty stack, as the pop asks it. -/
theorem sp_eq_zero_iff (s : State) : s.sp = 0 ↔ s.sp.val = 0 := Fin.ext_iff

/-- On a stack that is not full the pointer's successor does not wrap. -/
theorem sp_succ_eq (s : State) (h : s.sp.val < 16) : (⟨s.sp.val + 1, by omega⟩ : Fin 17) = s.sp + 1 := by
  have hmod : (s.sp.val + 1) % 17 = s.sp.val + 1 := Nat.mod_eq_of_lt (by omega)
  rw [Fin.ext_iff, Fin.val_add, show ((1 : Fin 17) : Nat) = 1 from rfl, hmod]

/-- An instruction the fault table does not name answers its completed state. -/
theorem exec_of_expectedFault_none {i : Instr} {s : State} (h : expectedFault i s = none) :
    exec i s = .next (completed i s) := by
  cases i
  case call nnn =>
    have hsp : s.sp.val < 16 := by simpa [expectedFault, sp_eq_sixteen_iff] using h
    rw [execCall_eq nnn s hsp, completed, sp_succ_eq s hsp, dif_pos hsp]
  case ret =>
    have hsp : ¬ s.sp = 0 := by simpa [expectedFault] using h
    exact execRet_eq s (mt (sp_eq_zero_iff s).mpr hsp)
  case drw x y n =>
    refine execDrw_eq x y n s ?_
    simp only [expectedFault, ite_eq_right_iff, reduceCtorEq, imp_false] at h
    rw [← BitVec.toNat_inj, show (0 : Nibble).toNat = 0 from rfl]
    omega
  case skp x =>
    have hle : (s.getV x).toNat < 16 := by simpa [expectedFault, Nat.lt_succ_iff] using h
    rw [execSkp_eq x s ⟨_, hle⟩ rfl, completed, State.keyNamed_eq s _ ⟨_, hle⟩ rfl]
    simp
  case sknp x =>
    have hle : (s.getV x).toNat < 16 := by simpa [expectedFault, Nat.lt_succ_iff] using h
    rw [execSknp_eq x s ⟨_, hle⟩ rfl, completed, State.keyNamed_eq s _ ⟨_, hle⟩ rfl]
    simp
  case ldBVx x => exact execLdBVx_eq x s (by simpa [expectedFault] using h)
  case ldMemVx x => exact execLdMemVx_eq x s (by simpa [expectedFault] using h)
  case ldVxMem x => exact execLdVxMem_eq x s (by simpa [expectedFault] using h)
  all_goals rfl

/-- One row of the fault table: where its condition holds, the fault it names is the one recorded. -/
theorem exec_of_faultRow {c : Prop} [Decidable c] {i : Instr} {s : State} {row : BitVec 3 × Word} {code : BitVec 3} {info : Word}
    (h : (if c then some row else none) = some (code, info)) (hrow : c → exec i s = .next (faultedFrom s row.1 row.2)) :
    exec i s = .next (faultedFrom s code info) := by
  obtain ⟨hc, hr⟩ := Option.ite_none_right_eq_some.mp h
  obtain rfl := Option.some.inj hr
  exact hrow hc

/-- An instruction the fault table names answers the state its fault leaves. -/
theorem exec_of_expectedFault_some {i : Instr} {s : State} {code : BitVec 3} {info : Word}
    (h : expectedFault i s = some (code, info)) : exec i s = .next (faultedFrom s code info) := by
  cases i
  case call nnn =>
    refine exec_of_faultRow h fun hsp => ?_
    rw [execCall_full nnn s ((sp_eq_sixteen_iff s).mp hsp), spInfo, hsp]
    rfl
  case ret =>
    refine exec_of_faultRow h fun hsp => ?_
    rw [execRet_empty s ((sp_eq_zero_iff s).mp hsp), spInfo, hsp]
    rfl
  case drw x y n => exact exec_of_faultRow h fun hout => execDrw_out x y n s hout.1 hout.2
  case skp x => exact exec_of_faultRow h (execSkp_none x s)
  case sknp x => exact exec_of_faultRow h (execSknp_none x s)
  case ldBVx x => exact exec_of_faultRow h (execLdBVx_out x s)
  case ldMemVx x => exact exec_of_faultRow h (execLdMemVx_out x s)
  case ldVxMem x => exact exec_of_faultRow h (execLdVxMem_out x s)
  all_goals nomatch h

/-- The two answers an instruction can give. -/
theorem exec_cases {i : Instr} {s t : State} (h : exec i s = .next t) :
    (∃ code info, expectedFault i s = some (code, info) ∧ t = faultedFrom s code info) ∨
      (expectedFault i s = none ∧ t = completed i s) := by
  cases hf : expectedFault i s with
  | none =>
    rw [exec_of_expectedFault_none hf] at h
    cases h
    exact .inr ⟨rfl, rfl⟩
  | some row =>
    rw [exec_of_expectedFault_some hf] at h
    cases h
    exact .inl ⟨row.1, row.2, rfl, rfl⟩

/-! ### What a completed instruction leaves in each field -/

section
variable (i : Instr) (s : State)

@[simp] theorem completed_key : (completed i s).key = s.key := by
  cases i <;> simp [completed]

@[simp] theorem completed_ir : (completed i s).ir = s.ir := by
  cases i <;> simp [completed]

@[simp] theorem completed_fault : (completed i s).fault = s.fault := by
  cases i <;> simp [completed]

@[simp] theorem completed_faultPc : (completed i s).faultPc = s.faultPc := by
  cases i <;> simp [completed]

@[simp] theorem completed_faultInfo : (completed i s).faultInfo = s.faultInfo := by
  cases i <;> simp [completed]

variable {i s}

theorem completed_disp (hcls : i ≠ .cls) (hdrw : ∀ x y n, i ≠ .drw x y n) : (completed i s).disp = s.disp := by
  cases i
  case cls => exact absurd rfl hcls
  case drw x y n => exact absurd rfl (hdrw x y n)
  all_goals simp [completed]

theorem completed_stack (hret : i ≠ .ret) (hcall : ∀ nnn, i ≠ .call nnn) : StackKept s (completed i s) := by
  cases i
  case ret => exact absurd rfl hret
  case call nnn => exact absurd rfl (hcall nnn)
  all_goals simp [completed, StackKept]

theorem completed_dt (h : ∀ x, i ≠ .ldDTVx x) : (completed i s).dt = s.dt := by
  cases i
  case ldDTVx x => exact absurd rfl (h x)
  all_goals simp [completed]

theorem completed_st (h : ∀ x, i ≠ .ldSTVx x) : (completed i s).st = s.st := by
  cases i
  case ldSTVx x => exact absurd rfl (h x)
  all_goals simp [completed]

theorem completed_block (h : ∀ x, i ≠ .ldVxK x) : (completed i s).block = s.block := by
  cases i
  case ldVxK x => exact absurd rfl (h x)
  all_goals simp [completed]

theorem completed_mem (hdec : ∀ x, i ≠ .ldBVx x) (hblock : ∀ x, i ≠ .ldMemVx x) : (completed i s).mem = s.mem := by
  cases i
  case ldBVx x => exact absurd rfl (hdec x)
  case ldMemVx x => exact absurd rfl (hblock x)
  all_goals simp [completed]

theorem completed_i (himm : ∀ nnn, i ≠ .ldINNN nnn) (hadd : ∀ x, i ≠ .addIVx x) (hfont : ∀ x, i ≠ .ldFVx x)
    (hstore : ∀ x, i ≠ .ldMemVx x) (hload : ∀ x, i ≠ .ldVxMem x) : (completed i s).i = s.i := by
  cases i
  case ldINNN nnn => exact absurd rfl (himm nnn)
  case addIVx x => exact absurd rfl (hadd x)
  case ldFVx x => exact absurd rfl (hfont x)
  case ldMemVx x => exact absurd rfl (hstore x)
  case ldVxMem x => exact absurd rfl (hload x)
  all_goals simp [completed]

/-- 40_fetch_dispatch R93. -/
theorem completed_pc (hjump : i.isJump = false) (hskip : i.isSkip = false) : (completed i s).pc = s.pc + 2 := by
  cases i
  case jp | call | ret | jpV0 => nomatch hjump
  case seVxNN | sneVxNN | seVxVy | sneVxVy | skp | sknp => nomatch hskip
  all_goals simp [completed]

/-- A skip moves `pc` by 4 or by 2, whatever it tests (41_control_flow R108). -/
theorem advance_skipIf_pc (s : State) (c : Bool) : (s.advance.skipIf c).pc = s.pc + 2 ∨ (s.advance.skipIf c).pc = s.pc + 4 := by
  rw [(advance_skipIf_frame s c).1]
  cases c
  · exact .inl rfl
  · exact .inr rfl

theorem completed_pc_of_skip (h : i.isSkip = true) : (completed i s).pc = s.pc + 2 ∨ (completed i s).pc = s.pc + 4 := by
  cases i
  case seVxNN | sneVxNN | seVxVy | sneVxVy | skp | sknp => exact advance_skipIf_pc s _
  all_goals nomatch h

/-! ### The general registers -/

/-- Held key or not, a poll writes no register but its destination. -/
theorem waitKey_getV_ne (s : State) {x r : RegIdx} (h : r ≠ x) : (s.waitKey x).getV r = s.getV r := by
  obtain hnone | ⟨k, hk⟩ := s.lowestHeld_cases
  · exact (waitKey_writes_of_none x hnone).2 r
  · exact (waitKey_writes_of_held x hk).2.2 r h

/-- A register that is neither a destination nor the flag output of an instruction is as before. -/
theorem completed_getV {r : RegIdx} (hdest : ¬ i.isDest r) (hflag : ¬ (r = 15 ∧ i.writesFlag = true)) :
    (completed i s).getV r = s.getV r := by
  cases i
  case ldVxNN | addVxNN | ldVxVy | orVxVy | andVxVy | xorVxVy | rnd | ldVxDT | ldVxST =>
    exact State.getV_setV_ne _ _ hdest
  case addVxVy | subVxVy | shrVxVy | subnVxVy | shlVxVy =>
    have hr : r ≠ 15 := fun e => hflag ⟨e, rfl⟩
    exact (State.getV_writeFlagResult _ _ r _ _).trans ((if_neg hdest).trans (if_neg hr))
  case addIVx | drw =>
    have hr : r ≠ 15 := fun e => hflag ⟨e, rfl⟩
    exact (State.getV_setFlag s.advance _ r).trans (if_neg hr)
  case ldVxMem x => exact (loadBlock_get _ _ x r _).trans (if_neg hdest)
  case ldVxK x => exact waitKey_getV_ne s.advance hdest
  case seVxNN | sneVxNN | seVxVy | sneVxVy | skp | sknp => exact State.skipIf_getV s.advance _ r
  all_goals rfl

/-- The flag output of an instruction that does not name VF as its destination is the byte 0 or 1. -/
theorem completed_flag (hflag : i.writesFlag = true) (hdest : ¬ i.isDest 15) :
    (completed i s).getV 15 = 0 ∨ (completed i s).getV 15 = 1 := by
  obtain ⟨f, hf⟩ : ∃ f, (completed i s).getV 15 = flagByte f := by
    cases i
    case addVxVy | subVxVy | shrVxVy | subnVxVy | shlVxVy =>
      exact ⟨_, (State.getV_writeFlagResult _ _ 15 _ _).trans ((if_neg hdest).trans (if_pos rfl))⟩
    case addIVx | drw => exact ⟨_, (State.getV_setFlag s.advance _ 15).trans (if_pos rfl)⟩
    all_goals nomatch hflag
  exact hf ▸ flagByte_eq f

end

/-! ### The obligations -/

/-- Settles O12: the table's rows one by one, and that no completed instruction writes a fault register. -/
theorem faultsAreRaisedExactlyAsTheTableSays : Obligations.FaultsAreRaisedExactlyAsTheTableSays := fun i s =>
  ⟨fun _ _ => exec_of_expectedFault_some, fun hnone =>
    ⟨_, exec_of_expectedFault_none hnone, completed_fault i s, completed_faultPc i s, completed_faultInfo i s⟩⟩

/-- Settles O53: a fault keeps every store, and a completed instruction each store it is not a writer of. -/
theorem eachStoreHasItsOwnWriters : Obligations.EachStoreHasItsOwnWriters := by
  intro i s t h
  obtain ⟨code, info, -, rfl⟩ | ⟨-, rfl⟩ := exec_cases h
  case inl =>
    exact ⟨rfl, rfl, fun _ _ _ => rfl, fun _ => ⟨rfl, rfl⟩, fun _ => rfl, fun _ => rfl, fun _ => rfl, fun _ _ => rfl, fun _ => rfl⟩
  case inr =>
    refine ⟨completed_key i s, completed_ir i s, fun ⟨hcls, hdrw⟩ r c => ?_, fun ⟨hret, hcall⟩ => completed_stack hret hcall,
      completed_dt, completed_st, completed_block, fun ⟨hdec, hblock⟩ a => ?_,
      fun ⟨himm, hadd, hfont, hstore, hload⟩ => completed_i himm hadd hfont hstore hload⟩
    · rw [pixelAt, completed_disp hcls hdrw, pixelAt]
    · rw [completed_mem hdec hblock]

/-- Settles O54: a fault writes no register, and a completed instruction only its destination and its flag output, the byte of a
flag. -/
theorem flagRegisterHasSevenImplicitWriters : Obligations.FlagRegisterHasSevenImplicitWriters := by
  intro i s t h
  obtain ⟨code, info, hfault, rfl⟩ | ⟨-, rfl⟩ := exec_cases h
  case inl => exact ⟨fun _ _ => rfl, fun _ _ hnone => nomatch hfault.symm.trans hnone⟩
  case inr =>
    exact ⟨fun r hr => completed_getV (not_or.mp hr).1 (not_or.mp hr).2, fun hflag hdest _ => completed_flag hflag hdest⟩

/-- From an address with both cells in memory the advance does not wrap. -/
theorem toNat_add_two {a : Word} (h : a.toNat ≤ 0x0FFE) : (a + 2).toNat = a.toNat + 2 := by
  rw [BitVec.toNat_add, show (2 : Word).toNat = 2 from rfl]
  exact Nat.mod_eq_of_lt (by omega)

/-- Settles O14: the `pc` of a completed instruction, of a call in range, which pushes the advanced `pc`, and of a jump. -/
theorem uniformAdvanceOfTheProgramCounter : Obligations.UniformAdvanceOfTheProgramCounter := by
  refine ⟨fun i s t hnone h => ?straight, fun nnn s t hsp h => ?call, fun nnn s t h => ?jump, fun s hpc => ?range⟩
  case straight =>
    obtain rfl := Host.Outcome.next.inj ((exec_of_expectedFault_none hnone).symm.trans h)
    exact ⟨completed_pc, completed_pc_of_skip⟩
  case call =>
    obtain rfl := Host.Outcome.next.inj ((execCall_eq nnn s hsp).symm.trans h)
    exact ⟨Vector.getElem_set_self hsp, rfl⟩
  case jump =>
    obtain rfl := Host.Outcome.next.inj ((exec_jp nnn s).symm.trans h)
    rfl
  case range =>
    rw [toNat_add_two hpc]
    exact ⟨rfl, by omega⟩

end Sys2Proof.Machine
end

