-- ==== Sys2Proof/Proofs/StepOutcomes.lean ====
section
/-! PROOF. What one step can do (40_fetch_dispatch R90), as one inversion of `step` with a constructor for each way a `cycle()` ends,
and the rules that read it: every step answers, faults are precise, a tick and a foreign `IR` are not seen. -/

namespace Sys2Proof.Machine

/-! ### The codes of the fault table -/

/-- One row of the fault table: the code recorded is the row's. -/
theorem code_eq_of_faultRow {c : Prop} [Decidable c] {k code : BitVec 3} {a info : Word}
    (h : (if c then some (k, a) else none) = some (code, info)) : k = code :=
  congrArg Prod.fst (Option.some.inj (Option.ite_none_right_eq_some.mp h).2)

/-- The table's codes are nonzero and at most 6 (60_exceptions R221). -/
theorem expectedFault_code {i : Instr} {s : State} {code : BitVec 3} {info : Word}
    (h : expectedFault i s = some (code, info)) : code ≠ 0 ∧ code.toNat ≤ 6 := by
  cases i
  case call | ret | drw | skp | sknp | ldBVx | ldMemVx | ldVxMem =>
    obtain rfl := code_eq_of_faultRow h
    decide
  all_goals nomatch h

/-! ### The ways a step ends -/

/-- What a step of `s` leads to: the four cases of `cycle()`, the fetched instruction's own fault apart. -/
inductive StepTo (s : State) : State → Prop
  | idle (hf : s.fault ≠ 0) : StepTo s s
  | poll (hf : s.fault = 0) (hb : s.block = true) : StepTo s (pollWaitKey s)
  | unfetchable (hf : s.fault = 0) (hb : s.block = false) (hpc : 0x0FFE < s.pc.toNat) : StepTo s (faultedFrom s 1 s.pc)
  | fault (hr : s.Ready) {code : BitVec 3} {info : Word} (h : expectedFault (decode s.wordAtPc) s = some (code, info)) :
      StepTo s (faultedFrom s code info)
  | complete (hr : s.Ready) (h : expectedFault (decode s.wordAtPc) s = none) :
      StepTo s { completed (decode s.wordAtPc) s with ir := s.wordAtPc }

/-- A fault that is recorded discards the latch. -/
theorem step_of_expectedFault_some {s : State} {code : BitVec 3} {info : Word} (hr : s.Ready)
    (h : expectedFault (decode s.wordAtPc) s = some (code, info)) : step s = .next (faultedFrom s code info) := by
  rw [step_ready s hr, exec_of_expectedFault_some h]
  exact congrArg Host.Outcome.next (if_neg (expectedFault_code h).1)

/-- An instruction that does not fault is latched. -/
theorem step_of_exec_no_fault {s t : State} {i : Instr} (hr : s.Ready) (hi : decode s.wordAtPc = i) (h : exec i s = .next t)
    (ht : t.fault = 0) : step s = .next { t with ir := s.wordAtPc } := by
  rw [step_ready s hr, hi, h, retire_next_of_no_fault _ ht]

theorem step_of_expectedFault_none {s : State} (hr : s.Ready) (h : expectedFault (decode s.wordAtPc) s = none) :
    step s = .next { completed (decode s.wordAtPc) s with ir := s.wordAtPc } :=
  step_of_exec_no_fault hr rfl (exec_of_expectedFault_none h) ((completed_fault ..).trans hr.1)

/-- One of the ways is open from every state. -/
theorem exists_stepTo (s : State) : ∃ t, StepTo s t := by
  obtain hf | ⟨hf, hb⟩ | ⟨hf, hb, hpc⟩ | hr := step_cases s
  · exact ⟨_, .idle hf⟩
  · exact ⟨_, .poll hf hb⟩
  · exact ⟨_, .unfetchable hf hb hpc⟩
  · cases h : expectedFault (decode s.wordAtPc) s with
    | none => exact ⟨_, .complete hr h⟩
    | some row => exact ⟨_, .fault hr h⟩

/-- The step takes each of the ways. -/
theorem StepTo.step_eq {s t : State} (h : StepTo s t) : step s = .next t := by
  cases h with
  | idle hf => exact step_faulted s hf
  | poll hf hb => exact step_blocked s hf hb
  | unfetchable hf hb hpc => exact step_unfetchable s hf hb hpc
  | fault hr h => exact step_of_expectedFault_some hr h
  | complete hr h => exact step_of_expectedFault_none hr h

/-- A step answers `t` exactly where one of the ways leads there. -/
theorem step_eq_next_iff {s t : State} : step s = .next t ↔ StepTo s t := by
  refine ⟨fun h => ?_, StepTo.step_eq⟩
  obtain ⟨u, hu⟩ := exists_stepTo s
  obtain rfl := Host.Outcome.next.inj (hu.step_eq.symm.trans h)
  exact hu

/-! ### The obligations -/

/-- Settles O8: every instruction answers, and retiring it is the latch the statement writes out. -/
theorem stepRunsTheDecodedInstruction : Obligations.StepRunsTheDecodedInstruction := by
  intro s hr
  obtain ⟨t, ht⟩ := exec_answers (decode s.wordAtPc) s
  exact ⟨t, ht, by rw [step_ready s hr, ht]; rfl⟩

/-- A poll with no key held leaves a blocked state as it is. -/
theorem pollWaitKey_of_none {s : State} (hb : s.block = true) (h : ∀ k : Fin 16, s.key.get k = false) : pollWaitKey s = s := by
  rw [pollWaitKey, State.waitKey_none _ _ h, ← hb]

/-- Settles O9: the three cases of a cycle that fetches nothing, the blocked one by whether a key is held. -/
theorem cycleWithoutAFetch : Obligations.CycleWithoutAFetch := by
  refine fun s => ⟨step_faulted s, fun hf hb hnone => ?none, fun hf hb k hk => ?held, step_unfetchable s⟩
  case none => rw [step_blocked s hf hb, pollWaitKey_of_none hb hnone]
  case held =>
    obtain ⟨hblock, hval, hregs⟩ := waitKey_writes_of_held (xOf s.ir) hk
    obtain ⟨hpc, hi, hstack, hmem, hscreen, hkeys, htimers, hir, hfault⟩ := waitKey_frame s (xOf s.ir)
    exact ⟨_, step_blocked s hf hb, hblock, hval, hregs, hpc, hir, hi, hstack, hmem, hscreen, hkeys, htimers, hfault⟩

/-- Settles O10: one of the ways a step can end is open from every state. -/
theorem everyStepAnswersANextState : Obligations.EveryStepAnswersANextState := fun s =>
  have ⟨t, ht⟩ := exists_stepTo s
  ⟨t, ht.step_eq⟩

/-- Settles O11: of the ways a step ends only the two recorded faults leave FAULT nonzero where it was 0. -/
theorem faultingStepWritesOnlyTheFaultRegisters : Obligations.FaultingStepWritesOnlyTheFaultRegisters := by
  intro s t hf hstep ht
  cases step_eq_next_iff.mp hstep with
  | idle hne => exact absurd hf hne
  | poll => exact absurd ((State.waitKey_fault ..).trans hf) ht
  | unfetchable => exact ⟨(by decide : (1 : BitVec 3).toNat ≤ 6), rfl, rfl⟩
  | fault _ h => exact ⟨(expectedFault_code h).2, rfl, rfl⟩
  | complete => exact absurd ((completed_fault ..).trans hf) ht

/-! ### Two fields a step does not look at -/

/-- A poll reads no timer. -/
theorem waitKey_tick (s : State) (x : RegIdx) : (tick s).waitKey x = tick (s.waitKey x) := by
  obtain hnone | ⟨k, hk⟩ := s.lowestHeld_cases
  · rw [State.waitKey_none (tick s) x hnone, State.waitKey_none s x hnone]
    rfl
  · rw [State.waitKey_held (tick s) x k hk, State.waitKey_held s x k hk]
    rfl

/-- Once its destination is known, a poll does not read `IR`. -/
theorem waitKey_ir_update (s : State) (x : RegIdx) (w : Word) :
    ({ s with ir := w } : State).waitKey x = { s.waitKey x with ir := w } := by
  obtain hnone | ⟨k, hk⟩ := s.lowestHeld_cases
  · rw [State.waitKey_none { s with ir := w } x hnone, State.waitKey_none s x hnone]
  · rw [State.waitKey_held { s with ir := w } x k hk, State.waitKey_held s x k hk]
    rfl

/-- A skip reads and writes nothing but `pc`. -/
theorem skipIf_tick (s : State) (c : Bool) : (tick s).skipIf c = tick (s.skipIf c) := by
  cases c <;> rfl

theorem skipIf_ir_update (s : State) (c : Bool) (w : Word) :
    ({ s with ir := w } : State).skipIf c = { s.skipIf c with ir := w } := by
  cases c <;> rfl

/-- But for the four timer instructions, no instruction reads or writes a timer. -/
theorem completed_tick {i : Instr} (h : i.isTimer = false) (s : State) : completed i (tick s) = tick (completed i s) := by
  cases i
  case ldVxDT | ldVxST | ldDTVx | ldSTVx => nomatch h
  case ldVxK x => exact waitKey_tick s.advance x
  case seVxNN | sneVxNN | seVxVy | sneVxVy | skp | sknp => exact skipIf_tick s.advance _
  all_goals rfl

/-- No instruction reads `IR`, and none writes it: the latch belongs to the fetch. -/
theorem completed_ir_update (i : Instr) (s : State) (w : Word) :
    completed i { s with ir := w } = { completed i s with ir := w } := by
  cases i
  case ldVxK x => exact waitKey_ir_update s.advance x w
  case seVxNN | sneVxNN | seVxVy | sneVxVy | skp | sknp => exact skipIf_ir_update s.advance _ w
  all_goals rfl

theorem expectedFault_tick (i : Instr) (s : State) : expectedFault i (tick s) = expectedFault i s := by
  cases i <;> rfl

theorem expectedFault_ir_update (i : Instr) (s : State) (w : Word) :
    expectedFault i { s with ir := w } = expectedFault i s := by
  cases i <;> rfl

/-- Settles O49: whichever way the step of `s` ends, the ticked state's step ends the same way, at the ticked result. -/
theorem tickCommutesWithACycleThatUsesNoTimer : Obligations.TickCommutesWithACycleThatUsesNoTimer := by
  intro s htimer
  obtain ⟨t, ht⟩ := exists_stepTo s
  refine ⟨t, ht.step_eq, ?_⟩
  cases ht with
  | idle hf => exact step_faulted (tick s) hf
  | poll hf hb => exact (step_blocked (tick s) hf hb).trans (congrArg Host.Outcome.next (waitKey_tick s _))
  | unfetchable hf hb hpc => exact step_unfetchable (tick s) hf hb hpc
  | fault hr h => exact step_of_expectedFault_some (s := tick s) hr ((expectedFault_tick _ s).trans h)
  | complete hr h =>
    have hstep := step_of_expectedFault_none (s := tick s) hr ((expectedFault_tick _ s).trans h)
    exact hstep.trans (congrArg (fun u : State => Host.Outcome.next { u with ir := s.wordAtPc }) (completed_tick (htimer hr) s))

/-- Settles O57: a step of the state with another `IR` ends the same way; only a poll reads its bits 11:8, and these agree. -/
theorem instructionRegisterIsSeenOnlyByTheBlockedPoll : Obligations.InstructionRegisterIsSeenOnlyByTheBlockedPoll := by
  intro s w hbits
  obtain ⟨t, ht⟩ := exists_stepTo s
  refine ⟨t, ?_⟩
  have hs := ht.step_eq
  cases ht with
  | idle hf => exact ⟨_, hs, step_faulted { s with ir := w } hf, rfl⟩
  | poll hf hb =>
    have hdest : xOf w = xOf s.ir := hbits hb
    refine ⟨_, hs, step_blocked { s with ir := w } hf hb, ?_⟩
    rw [pollWaitKey, pollWaitKey, hdest, waitKey_ir_update]
  | unfetchable hf hb hpc => exact ⟨_, hs, step_unfetchable { s with ir := w } hf hb hpc, rfl⟩
  | fault hr h =>
    exact ⟨_, hs, step_of_expectedFault_some (s := { s with ir := w }) hr ((expectedFault_ir_update _ s w).trans h), rfl⟩
  | complete hr h =>
    refine ⟨_, hs, step_of_expectedFault_none (s := { s with ir := w }) hr ((expectedFault_ir_update _ s w).trans h), ?_⟩
    exact congrArg (fun u : State => { u with ir := s.wordAtPc }) (completed_ir_update _ s w)

end Sys2Proof.Machine
end

