-- ==== Sys2Proof/Proofs/DecoderAndTable.lean ====
section
/-! PROOF. The decoder against the opcode table and the encoder (30_encoding R72 to R81). A row's test on masked bits is a test on
fields; read so, the table is a chain of the decoder's own tests. From this follow which instructions a word can decode to, and that
no word belongs to two rows. -/

namespace Sys2Proof

/-! ### The fields a mask keeps -/

theorem eq_sel_append_nnn (w : Word) : w = selOf w ++ nnnOf w := by
  apply BitVec.eq_of_getLsbD_eq
  intro i hi
  simp only [selOf, nnnOf, BitVec.getLsbD_extractLsb', BitVec.getLsbD_append]
  interval_cases i <;> simp

theorem eq_sel_append_x_append_nn (w : Word) : w = selOf w ++ xOf w ++ nnOf w := by
  apply BitVec.eq_of_getLsbD_eq
  intro i hi
  simp only [selOf, xOf, nnOf, BitVec.getLsbD_extractLsb', BitVec.getLsbD_append]
  interval_cases i <;> simp

theorem eq_fields (w : Word) : w = selOf w ++ xOf w ++ yOf w ++ nOf w := by
  apply BitVec.eq_of_getLsbD_eq
  intro i hi
  simp only [selOf, xOf, yOf, nOf, BitVec.getLsbD_extractLsb', BitVec.getLsbD_append]
  interval_cases i <;> simp

theorem and_F000 (w : Word) : w &&& 0xF000#16 = selOf w ++ 0#12 := by
  conv_lhs => rw [eq_sel_append_nnn w]
  exact Laws.WordMatchesTable.mask_sel_nnn _ _

theorem and_F0FF (w : Word) : w &&& 0xF0FF#16 = selOf w ++ 0#4 ++ nnOf w := by
  conv_lhs => rw [eq_sel_append_x_append_nn w]
  exact Laws.WordMatchesTable.mask_low_xnn _ _ _

theorem and_F00F (w : Word) : w &&& 0xF00F#16 = selOf w ++ 0#4 ++ 0#4 ++ nOf w := by
  conv_lhs => rw [eq_fields w]
  exact Laws.WordMatchesTable.mask_low_xyn _ _ _ _

/-- A row keyed by the selector. -/
theorem and_F000_eq_iff {w v : Word} (hv : v &&& 0xF000#16 = v) : w &&& 0xF000#16 = v ↔ selOf w = v.extractLsb' 12 4 := by
  have hfields : v = selOf v ++ 0#12 := hv.symm.trans (and_F000 v)
  rw [and_F000]
  refine ⟨fun h => ?_, fun hs => by rw [hs]; exact hfields.symm⟩
  rw [← h]
  exact (selOf_nnn ..).symm

/-- A row keyed by the selector and the low byte. -/
theorem and_F0FF_eq_iff {w v : Word} (hv : v &&& 0xF0FF#16 = v) :
    w &&& 0xF0FF#16 = v ↔ selOf w = v.extractLsb' 12 4 ∧ nnOf w = v.extractLsb' 0 8 := by
  have hfields : v = selOf v ++ 0#4 ++ nnOf v := hv.symm.trans (and_F0FF v)
  rw [and_F0FF]
  refine ⟨fun h => ?_, fun ⟨hs, hk⟩ => by rw [hs, hk]; exact hfields.symm⟩
  rw [← h]
  exact ⟨(selOf_xnn ..).symm, (nnOf_xnn ..).symm⟩

/-- A row keyed by the selector and the low nibble. -/
theorem and_F00F_eq_iff {w v : Word} (hv : v &&& 0xF00F#16 = v) :
    w &&& 0xF00F#16 = v ↔ selOf w = v.extractLsb' 12 4 ∧ nOf w = v.extractLsb' 0 4 := by
  have hfields : v = selOf v ++ 0#4 ++ 0#4 ++ nOf v := hv.symm.trans (and_F00F v)
  rw [and_F00F]
  refine ⟨fun h => ?_, fun ⟨hs, hn⟩ => by rw [hs, hn]; exact hfields.symm⟩
  rw [← h]
  exact ⟨(selOf_xyn ..).symm, (nOf_xyn ..).symm⟩

/-! ### The table as a chain of tests -/

/-- The instruction of the first row that takes the word, the no-op where none does. -/
def firstRow (w : Word) (rows : List OpcodeRow) : Instr :=
  match rows.find? (fun r => w &&& r.mask == r.value) with
  | some r => r.instr w
  | none => .nop

theorem decodeByTable_eq (ldst : Option Byte) (w : Word) : decodeByTable ldst w = firstRow w (opcodeRows ldst) := rfl

theorem firstRow_nil (w : Word) : firstRow w [] = .nop := rfl

theorem firstRow_cons (w : Word) (r : OpcodeRow) (rows : List OpcodeRow) :
    firstRow w (r :: rows) = if w &&& r.mask = r.value then r.instr w else firstRow w rows := by
  by_cases h : w &&& r.mask = r.value
  · simp [firstRow, h]
  · simp [firstRow, h]


/-- The value of row 35 (30_encoding R81), field by field. -/
theorem ldst_value_eq (k : Byte) : 0xF000#16 + k.setWidth 16 = 0xF#4 ++ 0#4 ++ k := by
  revert k
  decide

/-- Row 35. -/
theorem and_F0FF_eq_ldst_iff {w : Word} (k : Byte) :
    w &&& 0xF0FF#16 = 0xF000#16 + k.setWidth 16 ↔ selOf w = 0xF ∧ k = nnOf w := by
  rw [ldst_value_eq, and_F0FF_eq_iff (Laws.WordMatchesTable.mask_low_xnn ..)]
  exact and_congr (Eq.congr_right (selOf_xnn ..)) ((Eq.congr_right (nnOf_xnn ..)).trans eq_comm)

theorem sel_cases (s : BitVec 4) : s = 0x0 ∨ s = 0x1 ∨ s = 0x2 ∨ s = 0x3 ∨ s = 0x4 ∨ s = 0x5 ∨ s = 0x6 ∨ s = 0x7 ∨
    s = 0x8 ∨ s = 0x9 ∨ s = 0xA ∨ s = 0xB ∨ s = 0xC ∨ s = 0xD ∨ s = 0xE ∨ s = 0xF := by
  revert s
  decide

/-- Settles O2, selector by selector: of the table's tests those of the other selectors fail, and those left are the tests of the
selector's own dispatch, in the same order. -/
theorem decoderIsTheOpcodeTable : Obligations.DecoderIsTheOpcodeTable := by
  intro ldst w
  rw [decodeByTable_eq]
  obtain hs | hs | hs | hs | hs | hs | hs | hs | hs | hs | hs | hs | hs | hs | hs | hs := sel_cases (selOf w)
  all_goals
    cases ldst <;>
    simp [decodeWith, decodeSel0, decodeSel8, decodeSelE, decodeSelF, opcodeRows, opcodeRowsA, opcodeRowsB, opcodeRowsC,
      opcodeRowsD, firstRow_cons, firstRow_nil, and_F000_eq_iff, and_F0FF_eq_iff, and_F00F_eq_iff, and_F0FF_eq_ldst_iff, hs]

/-! ### Rows exclude each other -/

/-- Two rows are disjoint where their values differ under both masks. -/
theorem rows_disjoint {a b : OpcodeRow} (h : a.value &&& b.mask ≠ b.value &&& a.mask) (w : Word) :
    ¬ (w &&& a.mask = a.value ∧ w &&& b.mask = b.value) := by
  rintro ⟨ha, hb⟩
  rw [← ha, ← hb, BitVec.and_assoc, BitVec.and_assoc, BitVec.and_comm a.mask] at h
  exact h rfl

/-- Rows 1 to 34 differ in pairs. -/
theorem opcodeRows_none_pairwise : (opcodeRows none).Pairwise fun a b => a.value &&& b.mask ≠ b.value &&& a.mask := by
  decide

/-- Rows 1 to 34 take no word under selector 0xF but those of the nine assigned low bytes. -/
theorem nnOf_mem_assignedF_of_row {w : Word} (hs : selOf w = 0xF) :
    ∀ r ∈ opcodeRows none, w &&& r.mask = r.value → nnOf w ∈ assignedF := by
  simp +contextual [opcodeRows, opcodeRowsA, opcodeRowsB, opcodeRowsC, opcodeRowsD, and_F000_eq_iff, and_F0FF_eq_iff,
    and_F00F_eq_iff, hs, assignedF]

/-- Where LDST_SUBOP is set, row 35 stands after the others. -/
theorem opcodeRows_some (k : Byte) : opcodeRows (some k) =
    opcodeRows none ++ [⟨0xF0FF, 0xF000 + k.setWidth 16, fun w => .ldVxST (xOf w)⟩] := rfl

/-- Settles O3: rows 1 to 34 by their values under both masks, row 35 because its low byte is none of the nine. -/
theorem noWordBelongsToTwoRows : Obligations.NoWordBelongsToTwoRows := by
  intro ldst hlegal
  have hnone := opcodeRows_none_pairwise.imp rows_disjoint
  cases ldst with
  | none => exact hnone
  | some k =>
    have hfree : k ∉ assignedF := by simpa [ldstLegal] using hlegal
    rw [opcodeRows_some]
    refine List.pairwise_append.mpr ⟨hnone, List.pairwise_singleton .., fun r hr r' hr' w ⟨hw, hw'⟩ => ?_⟩
    obtain rfl := List.mem_singleton.mp hr'
    obtain ⟨hs, rfl⟩ := (and_F0FF_eq_ldst_iff k).mp hw'
    exact hfree (nnOf_mem_assignedF_of_row hs r hr hw)

/-! ### Encoding, then decoding -/

theorem decodeWith_sel8 (ldst : Option Byte) (x y n : BitVec 4) :
    decodeWith ldst (0x8#4 ++ x ++ y ++ n) = decodeSel8 (0x8#4 ++ x ++ y ++ n) := by
  simp [decodeWith]

theorem decodeWith_selE (ldst : Option Byte) (x : BitVec 4) (nn : Byte) :
    decodeWith ldst (0xE#4 ++ x ++ nn) = decodeSelE (0xE#4 ++ x ++ nn) := by
  simp [decodeWith]

theorem decodeWith_selF (ldst : Option Byte) (x : BitVec 4) (nn : Byte) :
    decodeWith ldst (0xF#4 ++ x ++ nn) = decodeSelF ldst (0xF#4 ++ x ++ nn) := by
  simp [decodeWith]

/-- A free low byte under selector 0xF selects `LD Vx, ST` where LDST_SUBOP is set to it (30_encoding R81). -/
theorem decodeWith_ldVxST_word {k : Byte} (x : RegIdx) (h : assignedF.contains k = false) :
    decodeWith (some k) (0xF#4 ++ x ++ k) = .ldVxST x := by
  have hne : k ≠ 0x07#8 ∧ k ≠ 0x0A#8 ∧ k ≠ 0x15#8 ∧ k ≠ 0x18#8 ∧ k ≠ 0x1E#8 ∧ k ≠ 0x29#8 ∧ k ≠ 0x33#8 ∧ k ≠ 0x55#8 ∧
      k ≠ 0x65#8 := by
    simpa [assignedF] using h
  rw [decodeWith_selF]
  simp [decodeSelF, hne]

/-- Settles O1: the selector picks the arm, under the keyed selectors the key picks the instruction, and the operands are read back
from their fields. -/
theorem encodeThenDecodeGivesTheInstruction : Obligations.EncodeThenDecodeGivesTheInstruction := by
  intro ldst i hwf
  cases i
  case cls | ret | nop => exact ⟨_, rfl, rfl⟩
  case jp | call | ldINNN | jpV0 | seVxNN | sneVxNN | ldVxNN | addVxNN | rnd | seVxVy | sneVxVy | drw =>
    exact ⟨_, rfl, by simp [decodeWith]⟩
  case ldVxVy | orVxVy | andVxVy | xorVxVy | addVxVy | subVxVy | shrVxVy | subnVxVy | shlVxVy =>
    exact ⟨_, rfl, by simp [decodeWith_sel8, decodeSel8]⟩
  case skp | sknp => exact ⟨_, rfl, by simp [decodeWith_selE, decodeSelE]⟩
  case ldVxDT | ldVxK | ldDTVx | ldSTVx | addIVx | ldFVx | ldBVx | ldMemVx | ldVxMem =>
    exact ⟨_, rfl, by simp [decodeWith_selF, decodeSelF]⟩
  case ldVxST x =>
    cases ldst with
    | none => nomatch hwf
    | some k =>
      have hfree : assignedF.contains k = false := by simpa [Instr.wf] using hwf
      exact ⟨_, by rw [encodeWith, hfree]; rfl, decodeWith_ldVxST_word x hfree⟩

/-! ### The words of one instruction -/

/-- What is decoded, with LDST_SUBOP unset, is the no-op or the instruction of a row. -/
theorem decode_eq_nop_or_row (w : Word) : decode w = .nop ∨ ∃ r ∈ opcodeRows none, decode w = r.instr w := by
  have htable : decode w = firstRow w (opcodeRows none) := decoderIsTheOpcodeTable none w
  unfold firstRow at htable
  split at htable
  · next r hr => exact .inr ⟨r, List.mem_of_find?_eq_some hr, htable⟩
  · exact .inl htable

/-- With LDST_SUBOP unset no word loads the sound timer: none of the rows 1 to 34 does. -/
theorem decode_ne_ldVxST (w : Word) (x : RegIdx) : decode w ≠ .ldVxST x := by
  have hrows : ∀ r ∈ opcodeRows none, r.instr w ≠ .ldVxST x := by
    simp [opcodeRows, opcodeRowsA, opcodeRowsB, opcodeRowsC, opcodeRowsD]
  obtain h | ⟨r, hr, h⟩ := decode_eq_nop_or_row w
  · simp [h]
  · exact h ▸ hrows r hr

/-- The destination of a decoded wait-for-key is the field `X` of its word. -/
theorem decode_ldVxK_dest {w : Word} {x : RegIdx} (h : decode w = .ldVxK x) : x = xOf w := by
  have hrows : ∀ r ∈ opcodeRows none, r.instr w = .ldVxK x → x = xOf w := by
    simp [opcodeRows, opcodeRowsA, opcodeRowsB, opcodeRowsC, opcodeRowsD, eq_comm]
  obtain hnop | ⟨r, hr, hrow⟩ := decode_eq_nop_or_row w
  · nomatch hnop.symm.trans h
  · exact hrows r hr (hrow.symm.trans h)

/-- Settles O7: seven closed words, decoded by evaluation. -/
theorem sampleWordsDecodeAsTheTableSays : Obligations.SampleWordsDecodeAsTheTableSays := by
  unfold Obligations.SampleWordsDecodeAsTheTableSays
  decide

theorem decode_ret_word (b : BitVec 4) : decode (0x0#4 ++ b ++ 0xEE#8) = .ret := by
  simp [decode, decodeWith, decodeSel0]

/-- Settles O5: each word is read back for every value of its ignored bits. -/
theorem ignoredBitsSelectTheSameInstruction : Obligations.IgnoredBitsSelectTheSameInstruction := fun b x y n =>
  ⟨decode_cls_word b, decode_ret_word b, decode_seVxVy_word x y n, decode_sneVxVy_word x y n⟩

end Sys2Proof

namespace Sys2Proof.Machine

theorem exec_ldVxST (x : RegIdx) (s : State) : exec (.ldVxST x) s = .next (s.advance.setV x s.st) := rfl

/-- Settles O6: no row loads the sound timer, a free byte under selector 0xF does where the parameter is set to it, and the instruction
is the advance and one register write. -/
theorem soundTimerLoadHasAWordOnlyWhereTheParameterIsSet :
    Obligations.SoundTimerLoadHasAWordOnlyWhereTheParameterIsSet :=
  ⟨decode_ne_ldVxST, fun k x hlegal => decodeWith_ldVxST_word x (by simpa [ldstLegal] using hlegal),
    fun x s => exec_write_of_setV (exec_ldVxST x s)⟩

end Sys2Proof.Machine
end

