-- ==== Sys2Proof/Proofs/CallsAndReturns.lean ====
section
/-! PROOF. `CALL`, `RET` and `JP V0, NNN` (41_control_flow R101 to R103): what each answers, and that a call of a return comes back. -/

namespace Sys2Proof.Machine

/-! ### Call and return -/

/-- The entries after a push on entry `n`. -/
theorem stk_get_set (stk : Vector Word 16) {n : Nat} (hn : n < 16) (a : Word) (k : Fin 16) :
    (stk.set n a hn).get k = if k.val = n then a else stk.get k := by
  simp only [Vector.get_eq_getElem, Vector.getElem_set, eq_comm]

/-- Settles O20: the call in range, entry by entry; the pushed address is the advanced `pc`. -/
theorem callPushesThePostFetchPc : Obligations.CallPushesThePostFetchPc := fun nnn s hsp =>
  ⟨_, execCall_eq nnn s hsp, addrImm_toNat nnn, rfl, stk_get_set s.stk hsp (s.pc + 2), fun _ => rfl, rfl, fun _ => rfl,
    fun _ _ => rfl, rfl, ⟨rfl, rfl⟩, rfl, rfl, rfl, rfl, rfl⟩

/-- Settles O21: a return in range reads the entry below the pointer and writes none. -/
theorem returnRestoresTheTopEntry : Obligations.ReturnRestoresTheTopEntry := by
  intro s k hsp
  have hpred : s.sp.val - 1 = k.val := by omega
  refine ⟨_, execRet_eq s (by omega), ?_, hpred, rfl, fun _ => rfl, rfl, fun _ => rfl, fun _ _ => rfl, rfl, ⟨rfl, rfl⟩,
    rfl, rfl, rfl, rfl, rfl⟩
  simp only [hpred, Vector.get_eq_getElem]

/-- The state a call on a stack that is not full leaves, its word latched. -/
def State.called (s : State) (nnn : Addr12) (h : s.sp.val < 16) : State :=
  { s.advance with
    stk := s.stk.set s.sp.val (s.pc + 2) h
    sp := ⟨s.sp.val + 1, by omega⟩
    pc := addrImm nnn
    ir := s.wordAtPc }

/-- A cycle that fetches a call. -/
theorem step_of_decode_call {s : State} {nnn : Addr12} (hr : s.Ready) (hsp : s.sp.val < 16) (h : decode s.wordAtPc = .call nnn) :
    step s = .next (s.called nnn hsp) :=
  step_of_exec_no_fault hr h (execCall_eq nnn s hsp) hr.1

/-- A cycle that fetches a return on a stack that is not empty. -/
theorem step_of_decode_ret {s : State} (hr : s.Ready) (hsp : s.sp.val ≠ 0) (h : decode s.wordAtPc = .ret) :
    step s = .next { s.advance with
      sp := ⟨s.sp.val - 1, by omega⟩
      pc := s.stk[s.sp.val - 1]'(by omega)
      ir := s.wordAtPc } :=
  step_of_exec_no_fault hr h (execRet_eq s hsp) hr.1

/-- Settles O22: the return finds the pushed address in the entry the call wrote, one below the pointer the call left. -/
theorem callThenReturnComesBack : Obligations.CallThenReturnComesBack := by
  intro s nnn hr hsp hcall hnnn hret
  have htarget : (addrImm nnn).toNat = nnn.toNat := addrImm_toNat nnn
  have hr' : (s.called nnn hsp).Ready := ⟨hr.1, hr.2.1, htarget.trans_le hnnn⟩
  have hword : (s.called nnn hsp).wordAtPc = s.mem.read nnn.toNat ++ s.mem.read (nnn.toNat + 1) := by
    rw [← htarget]
    rfl
  refine ⟨_, _, step_of_decode_call hr hsp hcall, step_of_decode_ret hr' (Nat.succ_ne_zero _) (hword ▸ hret), ?_, rfl,
    fun _ => rfl, fun _ => rfl⟩
  exact Vector.getElem_set_self hsp

/-! ### The indexed jump -/

theorem exec_jpV0 (nnn : Addr12) (s : State) :
    exec (.jpV0 nnn) s = .next { s.advance with pc := addrImm nnn + byteImm (s.getV 0) } := rfl

/-- 41_control_flow R103: an immediate and a byte make at most 0x10FE, and do not wrap. -/
theorem toNat_addrImm_add_byteImm (nnn : Addr12) (b : Byte) : (addrImm nnn + byteImm b).toNat = nnn.toNat + b.toNat := by
  have hn := nnn.isLt
  have hb := b.isLt
  rw [BitVec.toNat_add, addrImm_toNat, byteImm, BitVec.toNat_setWidth_of_le (by decide)]
  exact Nat.mod_eq_of_lt (by omega)

/-- Settles O23: the sum replaces the advanced `pc`, and the advance writes nothing else. -/
theorem indexedJumpAddsRegisterZero : Obligations.IndexedJumpAddsRegisterZero := fun nnn s =>
  ⟨_, exec_jpV0 nnn s, toNat_addrImm_add_byteImm nnn (s.getV 0), fun _ => rfl, by apply allButRegsKept_of_eq <;> rfl⟩

end Sys2Proof.Machine
end

