-- ==== Sys2Proof/Proofs/StateInvariant.lean ====
section
/-! PROOF. The machine invariant: it holds at reset, every way a step ends keeps it, and so does every transaction of the host. The
parts a completed instruction has to keep are proved part by part: memory, the stack, the bound of `pc`, and the wait-for-key word
of a blocked CORE. -/

namespace Sys2Proof.Machine

/-! ### What a completed instruction keeps -/

theorem completed_mem_wf {s : State} (i : Instr) (h : s.mem.wf = true) : (completed i s).mem.wf = true := by
  cases i
  case ldBVx | ldMemVx => exact Memory.wf_writeList _ _ _ h
  all_goals simpa [completed] using h

/-- Only a call writes an entry, the address after a fetchable one. -/
theorem completed_stk_le {s : State} (i : Instr) (hpc : s.pc.toNat ≤ 0x0FFE) (hstk : ∀ k : Fin 16, (s.stk.get k).toNat ≤ 0x1000)
    (k : Fin 16) : ((completed i s).stk.get k).toNat ≤ 0x1000 := by
  cases i
  case call nnn =>
    have hpush : (s.pc + 2).toNat ≤ 0x1000 := by
      rw [toNat_add_two hpc]
      omega
    simp only [completed]
    split
    · rw [stk_get_set]
      split
      · exact hpush
      · exact hstk k
    · exact hstk k
  all_goals simpa [completed] using hstk k

/-- Two or four past a fetchable address lies inside the bound. -/
theorem toNat_le_of_advance {a b : Word} (ha : a.toNat ≤ 0x0FFE) (hb : b = a + 2 ∨ b = a + 4) : b.toNat ≤ 0x10FE := by
  obtain rfl | rfl := hb
  · rw [toNat_add_two ha]
    omega
  · bv_omega

/-- The highest address an instruction can leave is that of `JP V0, NNN` (41_control_flow R103). -/
theorem completed_pc_le {s : State} (i : Instr) (hpc : s.pc.toNat ≤ 0x0FFE) (hstk : ∀ k : Fin 16, (s.stk.get k).toNat ≤ 0x1000) :
    (completed i s).pc.toNat ≤ 0x10FE := by
  cases i
  case jp nnn | call nnn =>
    have hn := nnn.isLt
    exact (addrImm_toNat nnn).trans_le (by omega)
  case jpV0 nnn =>
    have hn := nnn.isLt
    have hb := (s.getV 0).isLt
    exact (toNat_addrImm_add_byteImm nnn (s.getV 0)).trans_le (by omega)
  case ret => exact (hstk ⟨s.sp.val - 1, by omega⟩).trans (by omega)
  case seVxNN | sneVxNN | seVxVy | sneVxVy | skp | sknp => exact toNat_le_of_advance hpc (completed_pc_of_skip rfl)
  all_goals exact toNat_le_of_advance hpc (.inl (completed_pc rfl rfl))

/-- A CORE that an instruction leaves blocked executed the wait-for-key of its word (45_input R184). -/
theorem decode_of_completed_block {s : State} {w : Word} (hb : s.block = false) (h : (completed (decode w) s).block = true) :
    decode w = .ldVxK (xOf w) := by
  by_cases hw : ∃ x, decode w = .ldVxK x
  · obtain ⟨x, hx⟩ := hw
    rw [hx, decode_ldVxK_dest hx]
  · rw [completed_block (fun x hx => hw ⟨x, hx⟩), hb] at h
    cases h

/-! ### The invariant, one way a step ends after another -/

theorem inv_pollWaitKey {s : State} (hf : s.fault = 0) (hb : s.block = true) (h : s.Inv) : (pollWaitKey s).Inv := by
  obtain ⟨hmem, hpc, hstk, hblock, -, hclean⟩ := h
  have hf' : (pollWaitKey s).fault = 0 := (State.waitKey_fault ..).trans hf
  refine ⟨?_, ?_, ?_, fun _ => ⟨hf', ?_⟩, fun hne => absurd hf' hne, fun _ => ?_⟩
  all_goals simp only [pollWaitKey, State.waitKey_mem, State.waitKey_pc, State.waitKey_stk, State.waitKey_ir,
    State.waitKey_faultPc, State.waitKey_faultInfo]
  · exact hmem
  · exact hpc
  · exact hstk
  · exact (hblock hb).2
  · exact hclean hf

/-- A recorded fault keeps everything the invariant speaks of but the fault registers, which it writes as required. -/
theorem inv_faultedFrom {s : State} {code : BitVec 3} (info : Word) (hb : s.block = false) (hne : code ≠ 0) (hle : code.toNat ≤ 6)
    (h : s.Inv) : (faultedFrom s code info).Inv := by
  obtain ⟨hmem, hpc, hstk, -, -, -⟩ := h
  exact ⟨hmem, hpc, hstk, fun hblocked => absurd (hb.symm.trans hblocked) Bool.false_ne_true,
    fun _ => ⟨hle, rfl⟩, fun hzero => absurd hzero hne⟩

theorem inv_completed {s : State} (hr : s.Ready) (h : s.Inv) :
    State.Inv { completed (decode s.wordAtPc) s with ir := s.wordAtPc } := by
  obtain ⟨hmem, -, hstk, -, -, hclean⟩ := h
  obtain ⟨hf, hb, hpc⟩ := hr
  have hf' : (completed (decode s.wordAtPc) s).fault = 0 := (completed_fault ..).trans hf
  refine ⟨completed_mem_wf _ hmem, completed_pc_le _ hpc hstk, completed_stk_le _ hpc hstk,
    fun hblocked => ⟨hf', decode_of_completed_block hb hblocked⟩, fun hne => absurd hf' hne, fun _ => ?_⟩
  simpa using hclean hf

/-- Settles O16: each way a step ends keeps the invariant. -/
theorem everyStepKeepsTheStateInvariant : Obligations.EveryStepKeepsTheStateInvariant := by
  intro s t hinv hstep
  cases step_eq_next_iff.mp hstep with
  | idle => exact hinv
  | poll hf hb => exact inv_pollWaitKey hf hb hinv
  | unfetchable _ hb => exact inv_faultedFrom _ hb (by decide) (by decide) hinv
  | fault hr h =>
    obtain ⟨hne, hle⟩ := expectedFault_code h
    exact inv_faultedFrom _ hr.2.1 hne hle hinv
  | complete hr => exact inv_completed hr hinv

/-! ### Whatever the host does -/

/-- Settles O15: a closed state, whose invariant is decided by evaluation. -/
theorem stateInvariantHoldsAtReset : Obligations.StateInvariantHoldsAtReset := by
  unfold Obligations.StateInvariantHoldsAtReset
  decide

/-- A cycle in the host's hands is the step, which always answers. -/
theorem transact_cycle {σ : Session} {t : State} (h : step σ.core = .next t) :
    transact σ .cycle = ({ σ with core := t, cycled := true }, .done) := by
  rw [transact, h]

/-- One transaction keeps the invariant: a reset reaches it, a load keeps memory canonical, a cycle is a step, and the others write no
field it speaks of. -/
theorem inv_transact {σ : Session} (a : Transaction) (h : σ.core.Inv) : (transact σ a).1.core.Inv := by
  cases a with
  | reset => exact stateInvariantHoldsAtReset
  | load b =>
    rw [transact_load]
    split
    · exact h
    · split
      · exact h
      · obtain ⟨hmem, hrest⟩ := h
        exact ⟨Memory.wf_writeList _ _ _ hmem, hrest⟩
  | cycle =>
    obtain ⟨t, ht⟩ := everyStepAnswersANextState σ.core
    rw [transact_cycle ht]
    exact everyStepKeepsTheStateInvariant _ _ h ht
  | tick | setKey | pixelAt | isSoundActive | faultStatus => exact h

/-- Settles O17, by induction on the transactions. -/
theorem everyHostScheduleKeepsTheStateInvariant : Obligations.EveryHostScheduleKeepsTheStateInvariant := by
  intro σ as
  induction as generalizing σ with
  | nil => exact id
  | cons a as ih => exact fun h => ih _ (inv_transact a h)

/-- Settles O18: each field of the reset state, memory as the list of no cell, and the reset of a session. -/
theorem resetLeavesTheValuesOfTheTable : Obligations.ResetLeavesTheValuesOfTheTable := by
  refine ⟨by decide, rfl, rfl, rfl, by decide, fun a _ => Memory.read_nil a, fun r c => Display.get_clear r c, by decide,
    rfl, rfl, rfl, rfl, rfl, rfl, rfl, fun σ => ⟨σ.core.draws, rfl⟩⟩

end Sys2Proof.Machine
end

