-- ==== Sys2Proof/Proofs/LogicFlagsAndRandom.lean ====
section
/-! PROOF. The logic instructions, the five that write a flag, and `RND` (42_alu R124 to R131, R134). The frames of a register write and
of a write-back with a flag are proved once, in Laws/Frames.lean; here are the values. -/

namespace Sys2Proof.Machine

/-! ### The meanings -/

section
variable (x y : RegIdx) (nn : Byte) (s : State)

theorem exec_orVxVy : exec (.orVxVy x y) s = .next (s.advance.setV x (s.getV x ||| s.getV y)) := rfl

theorem exec_andVxVy : exec (.andVxVy x y) s = .next (s.advance.setV x (s.getV x &&& s.getV y)) := rfl

theorem exec_xorVxVy : exec (.xorVxVy x y) s = .next (s.advance.setV x (s.getV x ^^^ s.getV y)) := rfl

theorem exec_addVxVy : exec (.addVxVy x y) s =
    .next (s.advance.writeFlagResult x (carryOut (s.getV x) (s.getV y)) (s.getV x + s.getV y)) := rfl

theorem exec_subVxVy : exec (.subVxVy x y) s =
    .next (s.advance.writeFlagResult x (noBorrow (s.getV x) (s.getV y)) (s.getV x - s.getV y)) := rfl

theorem exec_subnVxVy : exec (.subnVxVy x y) s =
    .next (s.advance.writeFlagResult x (noBorrow (s.getV y) (s.getV x)) (s.getV y - s.getV x)) := rfl

theorem exec_shrVxVy : exec (.shrVxVy x y) s =
    .next (s.advance.writeFlagResult x (shiftedOutRight (s.getV y)) (s.getV y >>> 1)) := rfl

theorem exec_shlVxVy : exec (.shlVxVy x y) s =
    .next (s.advance.writeFlagResult x (shiftedOutLeft (s.getV y)) (s.getV y <<< 1)) := rfl

theorem exec_rnd : exec (.rnd x nn) s = .next (s.advance.drawByte.2.setV x (Config.rngByte s.draws &&& nn)) := rfl

end

/-! ### Logic -/

/-- Settles O29: each is one register write, and the byte written is bitwise. -/
theorem logicIsBitwiseAndLeavesTheFlag : Obligations.LogicIsBitwiseAndLeavesTheFlag := by
  intro x y s
  obtain ⟨t, ht, hor, hframe⟩ := exec_write_of_setV (exec_orVxVy x y s)
  obtain ⟨u, hu, hand, uframe⟩ := exec_write_of_setV (exec_andVxVy x y s)
  obtain ⟨v, hv, hxor, vframe⟩ := exec_write_of_setV (exec_xorVxVy x y s)
  exact ⟨⟨t, ht, fun k _ => by rw [hor, BitVec.getLsbD_or], hframe⟩, ⟨u, hu, fun k _ => by rw [hand, BitVec.getLsbD_and], uframe⟩,
    ⟨v, hv, fun k _ => by rw [hxor, BitVec.getLsbD_xor, Bool.bne_eq_xor], vframe⟩⟩

/-! ### The flags -/

/-- An instruction whose meaning is the advance and a write-back with a flag (42_alu R122). -/
theorem exec_write_of_writeFlagResult {i : Instr} {s : State} {x : RegIdx} {f : Bool} {b : Byte}
    (h : exec i s = .next (s.advance.writeFlagResult x f b)) :
    ∃ t, exec i s = .next t ∧ t.getV x = b ∧ (x ≠ 15 → t.getV 15 = flagByte f) ∧
      RegsKeptBut (fun r => r = x ∨ r = 15) s t ∧ t.pc = s.pc + 2 ∧ AllButRegsKept s t :=
  ⟨_, h, advance_writeFlagResult_frame s x f b⟩

/-- The byte of a decided flag. -/
theorem flagByte_decide (p : Prop) [Decidable p] : flagByte (decide p) = if p then 1 else 0 := by
  simp [flagByte]

/-- Settles O30: the sum of bytes as a sum modulo 256, the carry as the comparison it decides, and the frame of the write-back. -/
theorem addWritesTheSumAndTheCarry : Obligations.AddWritesTheSumAndTheCarry := by
  intro x y s
  obtain ⟨t, ht, hval, hflag, hframe⟩ := exec_write_of_writeFlagResult (exec_addVxVy x y s)
  exact ⟨t, ht, by rw [hval, BitVec.toNat_add], fun hx => by rw [hflag hx, carryOut, flagByte_decide], hframe⟩

/-- A difference of bytes as the difference of the numbers, modulo 256. -/
theorem toNat_byte_sub (a b : Byte) : (a - b).toNat = (a.toNat + 256 - b.toNat) % 256 := by
  bv_omega

/-- Settles O31: both operand orders, each a write-back of a difference with the comparison as its flag. -/
theorem subtractWritesTheDifferenceAndNoBorrow : Obligations.SubtractWritesTheDifferenceAndNoBorrow := by
  intro x y s
  obtain ⟨t, ht, hval, hflag, hframe⟩ := exec_write_of_writeFlagResult (exec_subVxVy x y s)
  obtain ⟨u, hu, uval, uflag, uframe⟩ := exec_write_of_writeFlagResult (exec_subnVxVy x y s)
  exact ⟨⟨t, ht, by rw [hval, toNat_byte_sub], fun hx => by rw [hflag hx, noBorrow, flagByte_decide], hframe⟩,
    ⟨u, hu, by rw [uval, toNat_byte_sub], fun hx => by rw [uflag hx, noBorrow, flagByte_decide], uframe⟩⟩

/-- The bit a right shift puts out, as a number. -/
theorem toNat_flagByte_shiftedOutRight (b : Byte) : (flagByte (shiftedOutRight b)).toNat = b.toNat % 2 := by
  revert b
  decide

/-- The bit a left shift puts out, as a number. -/
theorem toNat_flagByte_shiftedOutLeft (b : Byte) : (flagByte (shiftedOutLeft b)).toNat = b.toNat / 128 := by
  revert b
  decide

theorem toNat_byte_shiftRight_one (b : Byte) : (b >>> 1).toNat = b.toNat / 2 := by
  rw [BitVec.toNat_ushiftRight, Nat.shiftRight_one]

theorem toNat_byte_shiftLeft_one (b : Byte) : (b <<< 1).toNat = b.toNat * 2 % 256 := by
  rw [BitVec.toNat_shiftLeft, Nat.shiftLeft_eq]

/-- Settles O32: both shifts, each a write-back of half or twice `V[Y]` with the bit that leaves it. -/
theorem shiftsTakeTheirValueFromVy : Obligations.ShiftsTakeTheirValueFromVy := by
  intro x y s
  obtain ⟨t, ht, hval, hflag, hframe⟩ := exec_write_of_writeFlagResult (exec_shrVxVy x y s)
  obtain ⟨u, hu, uval, uflag, uframe⟩ := exec_write_of_writeFlagResult (exec_shlVxVy x y s)
  exact ⟨⟨t, ht, by rw [hval, toNat_byte_shiftRight_one], fun hx => by rw [hflag hx, toNat_flagByte_shiftedOutRight], hframe⟩,
    ⟨u, hu, by rw [uval, toNat_byte_shiftLeft_one], fun hx => by rw [uflag hx, toNat_flagByte_shiftedOutLeft], uframe⟩⟩

/-! ### The random byte -/

/-- A masked byte has no bit outside the mask. -/
theorem and_and_not_eq_zero (r m : Byte) : r &&& m &&& ~~~m = 0 := by
  rw [BitVec.and_assoc, BitVec.and_not_self]
  exact BitVec.and_zero

/-- Settles O33: the frame is that of a register write, since drawing the byte changes only the count of draws. -/
theorem randomByteIsMasked : Obligations.RandomByteIsMasked := by
  intro x nn s
  obtain ⟨hval, hregs, hpc, hrest⟩ := advance_setV_frame s x (Config.rngByte s.draws &&& nn)
  refine ⟨_, exec_rnd x nn s, ⟨Config.rngByte s.draws, hval⟩, ?_, ?_, hregs, hpc, hrest⟩
  · rw [State.getV_setV_same, and_and_not_eq_zero]
  · rw [State.getV_setV_same, BitVec.toNat_and]
    exact Nat.and_le_right

end Sys2Proof.Machine
end

