-- ==== Sys2Proof/Proofs/MemoryAndIndex.lean ====
section
/-! PROOF. The address register, the memory transfers and the canonical form of memory (43_memory_index R151 to R157, 10_state R27). -/

namespace Sys2Proof.Machine

/-! ### The address register -/

theorem exec_addIVx (x : RegIdx) (s : State) : exec (.addIVx x) s =
    .next { s.advance.setFlag (leavesRange s.i (s.getV x)) with i := s.i + byteImm (s.getV x) } := rfl

theorem exec_ldFVx (x : RegIdx) (s : State) : exec (.ldFVx x) s = .next { s.advance with i := glyphAddr (s.getV x) } := rfl

theorem byteImm_toNat (b : Byte) : (byteImm b).toNat = b.toNat :=
  BitVec.toNat_setWidth_of_le (by decide)

/-- The advance, a flag in VF and a write of `I`. -/
theorem advance_setFlag_i_frame (s : State) (f : Bool) (a : Word) :
    let t : State := { s.advance.setFlag f with i := a }
    t.getV 15 = flagByte f ∧ RegsKeptBut (· = 15) s t ∧ t.pc = s.pc + 2 ∧ StackKept s t ∧ MemKept s t ∧ ScreenKept s t ∧
      KeysKept s t ∧ TimersKept s t ∧ ControlKept s t :=
  ⟨(State.getV_setFlag s.advance f 15).trans (if_pos rfl), fun r hr => (State.getV_setFlag s.advance f r).trans (if_neg hr),
    s.advance_pc, ⟨rfl, rfl⟩, fun _ => rfl, fun _ _ => rfl, rfl, ⟨rfl, rfl⟩, rfl, rfl, rfl, rfl, rfl⟩

/-- Settles O35: the 16-bit sum, and the flag of the unbounded one. -/
theorem addToAddressRegisterFlagsTheRange : Obligations.AddToAddressRegisterFlagsTheRange := by
  intro x s
  obtain ⟨hflag, hframe⟩ := advance_setFlag_i_frame s (leavesRange s.i (s.getV x)) (s.i + byteImm (s.getV x))
  refine ⟨_, exec_addIVx x s, ?_, ?_, hframe⟩
  · rw [BitVec.toNat_add, byteImm_toNat]
  · rw [hflag, leavesRange, flagByte_decide]

/-- 43_memory_index R152: the product and the sum do not wrap. -/
theorem glyphAddr_toNat (b : Byte) : (glyphAddr b).toNat = 0x050 + 5 * b.toNat := by
  have hb := b.isLt
  rw [glyphAddr, BitVec.toNat_add, BitVec.toNat_mul, byteImm_toNat, show (0x0050#16).toNat = 0x050 from rfl,
    show (5#16).toNat = 5 from rfl, Nat.mod_eq_of_lt (by omega : 5 * b.toNat < 2 ^ 16)]
  exact Nat.mod_eq_of_lt (by omega)

/-- The font region at reset. -/
theorem resetByte_font {k : Nat} (hk : k < 80) : resetByte (0x050 + k) = font.getD k 0 := by
  rw [resetByte, if_pos ⟨by simp, by simp; omega⟩, Config.fontBase, Nat.add_sub_cancel_left]

/-- Settles O36: a write of `I` with the glyph's address, whose five cells lie in the font region for a digit. -/
theorem fontPointerIsBasePlusFiveTimesTheDigit : Obligations.FontPointerIsBasePlusFiveTimesTheDigit := by
  intro x s
  obtain ⟨t, ht, hi, hframe⟩ := exec_write_of_i (exec_ldFVx x s)
  have haddr : t.i.toNat = 0x050 + 5 * (s.getV x).toNat := by rw [hi, glyphAddr_toNat]
  refine ⟨t, ht, haddr, fun hdigit j hj => ?_, hframe⟩
  rw [haddr, Nat.add_assoc]
  exact resetByte_font (by omega)

/-! ### Stores -/

/-- The advance and a write of memory. -/
theorem advance_mem_frame (s : State) (m : Memory) :
    let t : State := { s.advance with mem := m }
    RegsKept s t ∧ t.i = s.i ∧ t.pc = s.pc + 2 ∧ StackKept s t ∧ ScreenKept s t ∧ KeysKept s t ∧ TimersKept s t ∧
      ControlKept s t :=
  ⟨s.advance_getV, rfl, s.advance_pc, ⟨rfl, rfl⟩, fun _ _ => rfl, rfl, ⟨rfl, rfl⟩, rfl, rfl, rfl, rfl, rfl⟩

/-- The `k`-th cell of a run of writes that ends within memory. -/
theorem read_writeList_add (m : Memory) (a : Nat) (bs : List Byte) {k : Nat} (hk : k < bs.length) (h : a + bs.length ≤ 0x1000) :
    (m.writeList a bs).read (a + k) = bs.getD k 0 := by
  rw [Memory.read_writeList bs m a (a + k) h, if_pos ⟨by omega, by omega⟩, Nat.add_sub_cancel_left]

/-- A decimal digit fits a byte. -/
theorem toNat_ofNat_of_lt {n : Nat} (h : n < 256) : (BitVec.ofNat 8 n).toNat = n := Nat.mod_eq_of_lt h

/-- Settles O37: the three digits are a run of three writes. -/
theorem decimalDigitsAreStoredAtI : Obligations.DecimalDigitsAreStoredAtI := by
  intro x s hrange
  have hv := (s.getV x).isLt
  have hread : ∀ k, k < 3 → (s.mem.writeList s.i.toNat (decimalDigits (s.getV x))).read (s.i.toNat + k) =
      (decimalDigits (s.getV x)).getD k 0 := fun k hk => read_writeList_add s.mem _ _ hk (Nat.succ_le_succ hrange)
  obtain ⟨hregs, hi, hpc, hrest⟩ := advance_mem_frame s (s.mem.writeList s.i.toNat (decimalDigits (s.getV x)))
  refine ⟨_, execLdBVx_eq x s hrange, ?_, ?_, ?_,
    Memory.read_writeList_outside (decimalDigits (s.getV x)) s.mem s.i.toNat, hregs, hi, hpc, hrest⟩
  · exact (congrArg BitVec.toNat (hread 0 (by omega))).trans (toNat_ofNat_of_lt (by omega))
  · exact (congrArg BitVec.toNat (hread 1 (by omega))).trans (toNat_ofNat_of_lt (by omega))
  · exact (congrArg BitVec.toNat (hread 2 (by omega))).trans (toNat_ofNat_of_lt (by omega))

/-! ### Block transfers -/

/-- Past a block within memory `I` does not wrap. -/
theorem toNat_add_blockLen {a : Word} {x : RegIdx} (h : a.toNat + x.toNat ≤ 0x0FFF) :
    (a + BitVec.ofNat 16 (blockLen x)).toNat = a.toNat + x.toNat + 1 := by
  have hx := x.isLt
  rw [BitVec.toNat_add, BitVec.toNat_ofNat, blockLen, Nat.mod_eq_of_lt (by omega : x.toNat + 1 < 2 ^ 16)]
  exact Nat.mod_eq_of_lt (by omega)

/-- The `k`-th byte of a stored block. -/
theorem block0To_getD (s : State) {x k : RegIdx} (h : k.toNat ≤ x.toNat) : (s.block0To x).getD k.toNat 0 = s.getV k := by
  have hlen : k.toNat < (s.block0To x).length := by
    rw [State.block0To_length]
    omega
  rw [List.getD_eq_getElem _ _ hlen, State.block0To_getElem, BitVec.ofNat_toNat, BitVec.setWidth_eq]

/-- Settles O38: the block is a run of writes of `V[0]` to `V[X]`. -/
theorem storeBlockWritesTheFirstRegisters : Obligations.StoreBlockWritesTheFirstRegisters := by
  intro x s hrange
  have hlen := s.block0To_length x
  refine ⟨_, execLdMemVx_eq x s hrange, fun k hk => ?_, ?_, toNat_add_blockLen hrange, fun _ => rfl, rfl, ⟨rfl, rfl⟩, fun _ _ => rfl,
    rfl, ⟨rfl, rfl⟩, rfl, rfl, rfl, rfl, rfl⟩
  · exact (read_writeList_add s.mem _ _ (by omega) (by omega)).trans (block0To_getD s hk)
  · rw [← hlen]
    exact Memory.read_writeList_outside _ _ _

/-- Settles O39: the block load's registers up to `X` come from memory, those above are kept. -/
theorem loadBlockReadsTheFirstRegisters : Obligations.LoadBlockReadsTheFirstRegisters := by
  intro x s hrange
  exact ⟨_, execLdVxMem_eq x s hrange, fun k hk => (loadBlock_get s.mem _ x k s.v).trans (if_pos hk),
    fun r hr => (loadBlock_get s.mem _ x r s.v).trans (if_neg hr), toNat_add_blockLen hrange, rfl, ⟨rfl, rfl⟩, fun _ => rfl,
    fun _ _ => rfl, rfl, ⟨rfl, rfl⟩, rfl, rfl, rfl, rfl, rfl⟩

/-- Settles O40: the load of the stored block reads what the store wrote there; the load after it reads cells the store left alone. -/
theorem storeThenLoadRoundTrips : Obligations.StoreThenLoadRoundTrips := by
  intro x s t hrange hstore
  obtain ⟨t', ht', hcells, houtside, hi, -⟩ := storeBlockWritesTheFirstRegisters x s hrange
  obtain rfl := Host.Outcome.next.inj (ht'.symm.trans hstore)
  refine ⟨fun v => ?reloaded, fun hnext => ?left⟩
  case reloaded =>
    obtain ⟨u, hu, hregs, -, hui, -⟩ := loadBlockReadsTheFirstRegisters x { t' with i := s.i, v := v } hrange
    exact ⟨u, hu, fun k hk => (hregs k hk).trans (hcells k hk), hui⟩
  case left =>
    obtain ⟨u, hu, hregs, -, hui, -⟩ := loadBlockReadsTheFirstRegisters x t' (by omega)
    refine ⟨u, hu, by omega, fun k hk => ?_⟩
    rw [hregs k hk, hi, houtside _ (by omega)]

/-! ### The canonical form -/

/-- A canonical list differs at its first address from one that begins after it, since that one holds the reset value there. -/
theorem Memory.read_head_ne {lo k : Nat} {c : Byte} {m m' : Memory} (h : Memory.wfFrom lo ((k, c) :: m) = true)
    (h' : Memory.wfFrom (k + 1) m' = true) : ∃ a, a < 0x1000 ∧ Memory.read ((k, c) :: m) a ≠ Memory.read m' a := by
  obtain ⟨-, hk, hc, -⟩ := Memory.wfFrom_cons.mp h
  refine ⟨k, hk, ?_⟩
  rwa [Memory.read_below m' h' (Nat.lt_succ_self k), Memory.read, if_pos rfl]

/-- Canonical lists with the same first address that read alike have tails that read alike. -/
theorem Memory.read_tail_eq {k : Nat} {c : Byte} {m m' : Memory} (hm : Memory.wfFrom (k + 1) m = true)
    (hm' : Memory.wfFrom (k + 1) m' = true) {a : Nat} (h : Memory.read ((k, c) :: m) a = Memory.read ((k, c) :: m') a) :
    m.read a = m'.read a := by
  by_cases ha : a = k
  · rw [Memory.read_below m hm (by omega), Memory.read_below m' hm' (by omega)]
  · rwa [Memory.read, Memory.read, if_neg ha, if_neg ha] at h

/-- Of two canonical lists that read alike neither lists an address before the other, so that they agree entry by entry. -/
theorem Memory.eq_of_wfFrom (m : Memory) : ∀ (m' : Memory) (lo lo' : Nat), Memory.wfFrom lo m = true →
    Memory.wfFrom lo' m' = true → (∀ a, a < 0x1000 → m.read a = m'.read a) → m = m' := by
  induction m with
  | nil =>
    intro m' lo lo' _ hm' hread
    cases m' with
    | nil => rfl
    | cons e' m' =>
      obtain ⟨a, ha, hne⟩ := Memory.read_head_ne hm' (m' := []) rfl
      exact absurd (hread a ha).symm hne
  | cons e m ih =>
    obtain ⟨k, c⟩ := e
    intro m' lo lo' hm hm' hread
    obtain ⟨-, hk, -, htail⟩ := Memory.wfFrom_cons.mp hm
    cases m' with
    | nil =>
      obtain ⟨a, ha, hne⟩ := Memory.read_head_ne hm (m' := []) rfl
      exact absurd (hread a ha) hne
    | cons e' m' =>
      obtain ⟨k', c'⟩ := e'
      obtain ⟨-, hk', hc', htail'⟩ := Memory.wfFrom_cons.mp hm'
      obtain hlt | rfl | hgt := Nat.lt_trichotomy k k'
      · obtain ⟨a, ha, hne⟩ := Memory.read_head_ne hm (Memory.wfFrom_cons.mpr ⟨hlt, hk', hc', htail'⟩)
        exact absurd (hread a ha) hne
      · obtain rfl : c = c' := by simpa [Memory.read] using hread k hk
        rw [ih m' _ _ htail htail' fun a ha => Memory.read_tail_eq htail htail' (hread a ha)]
      · obtain ⟨-, -, hc, -⟩ := Memory.wfFrom_cons.mp hm
        obtain ⟨a, ha, hne⟩ := Memory.read_head_ne hm' (Memory.wfFrom_cons.mpr ⟨hgt, hk, hc, htail⟩)
        exact absurd (hread a ha).symm hne

/-- Settles O58: two canonical lists from address 0. -/
theorem canonicalMemoriesAreEqualWhenTheyReadAlike : Obligations.CanonicalMemoriesAreEqualWhenTheyReadAlike :=
  fun m m' => Memory.eq_of_wfFrom m m' 0 0

end Sys2Proof.Machine
end

