-- ==== Sys2Proof/Proofs/DrawTwiceAndKeys.lean ====
section
/-! PROOF. A sprite drawn twice (44_display R174), the key skips and the blocking state machine (45_input R180 to R185), and key events
(47_host_interface R204). -/

namespace Sys2Proof.Machine

/-! ### Drawing twice -/

/-- A sprite is read from memory at `I` and placed by two registers; nothing else moves or changes it. -/
theorem spriteAt_congr {s t : State} {x y : RegIdx} (n : Nibble) (hx : t.getV x = s.getV x) (hy : t.getV y = s.getV y)
    (hi : t.i = s.i) (hmem : MemKept s t) (r : Fin 32) (c : Fin 64) : t.spriteAt x y n r c = s.spriteAt x y n r c := by
  rw [State.spriteAt, State.spriteAt, spriteBit, spriteBit, hx, hy, hi, hmem]

/-- Settles O43: the first draw leaves the sprite where it was, so that the second xors the same bits; on an empty display the first
leaves exactly the sprite's bits for the second to meet. -/
theorem drawingTwiceRestoresTheDisplay : Obligations.DrawingTwiceRestoresTheDisplay := by
  intro x y n s hx hy hrange
  obtain ⟨t, ht, tpixel, -, tmiss, tregs, ti, -, -, tmem, -⟩ := drawIsTheXorOfTheClippedSprite x y n s hrange
  obtain ⟨u, hu, upixel, uhit, umiss, -⟩ := drawIsTheXorOfTheClippedSprite x y n t (ti.symm ▸ hrange)
  have hsprite : ∀ r c, t.spriteAt x y n r c = s.spriteAt x y n r c := spriteAt_congr n (tregs x hx) (tregs y hy) ti tmem
  refine ⟨t, u, ht, hu, fun r c => ?restored, fun hempty => ⟨tmiss ?nohit, ?second⟩⟩
  case restored => rw [upixel, tpixel, hsprite, Bool.bne_assoc, bne_self_eq_false, Bool.bne_false]
  case nohit =>
    rintro ⟨r, c, hset, -⟩
    exact Bool.false_ne_true ((hempty r c).symm.trans hset)
  case second =>
    have hdrawn : ∀ r c, pixelAt t r c = s.spriteAt x y n r c := fun r c => by rw [tpixel, hempty, Bool.false_bne]
    simp only [hdrawn, hsprite, and_self] at uhit umiss
    refine ⟨fun hone => ?_, uhit⟩
    by_contra hno
    exact absurd ((umiss hno).symm.trans hone) (by decide)

/-! ### The key skips -/

/-- Settles O44: each is a skip on the named key's flag. -/
theorem keySkipsReadTheNamedKey : Obligations.KeySkipsReadTheNamedKey := by
  intro x s k hk
  obtain ⟨hpc, hframe⟩ := advance_skipIf_frame s (s.key.get k)
  obtain ⟨hpc', hframe'⟩ := advance_skipIf_frame s !(s.key.get k)
  exact ⟨⟨_, execSkp_eq x s k hk, hpc, hframe⟩, ⟨_, execSknp_eq x s k hk, hpc'.trans (by cases s.key.get k <;> rfl), hframe'⟩⟩

/-! ### The blocking state machine -/

/-- A cycle that fetches anything but a wait-for-key does not block, whether it faults or completes. -/
theorem step_block_of_ne_ldVxK {s : State} (hr : s.Ready) (h : ∀ x, decode s.wordAtPc ≠ .ldVxK x) :
    ∃ t, step s = .next t ∧ t.block = false := by
  cases hf : expectedFault (decode s.wordAtPc) s with
  | none => exact ⟨_, step_of_expectedFault_none hr hf, (completed_block h).trans hr.2.1⟩
  | some row => exact ⟨_, step_of_expectedFault_some hr hf, hr.2.1⟩

/-- A cycle that fetches a wait-for-key polls once and latches its word. -/
theorem step_of_decode_ldVxK {s : State} {x : RegIdx} (hr : s.Ready) (h : decode s.wordAtPc = .ldVxK x) :
    step s = .next { s.advance.waitKey x with ir := s.wordAtPc } :=
  step_of_exec_no_fault hr h (exec_ldVxK x s) ((State.waitKey_fault ..).trans hr.1)

/-- No transaction but a reset and a cycle touches BLOCK. -/
theorem transact_block (σ : Session) {a : Transaction} (hreset : a ≠ .reset) (hcycle : a ≠ .cycle) :
    (transact σ a).1.core.block = σ.core.block := by
  cases a with
  | reset => exact absurd rfl hreset
  | cycle => exact absurd rfl hcycle
  | load b =>
    rw [transact_load]
    split
    · rfl
    · split <;> rfl
  | tick | setKey | pixelAt | isSoundActive | faultStatus => rfl

/-- Settles O46: the fetching cycles, the blocked ones, and the other transactions. -/
theorem blockingStateMachine : Obligations.BlockingStateMachine := by
  refine ⟨fun s => step_block_of_ne_ldVxK, fun s x hr hx => ⟨fun k hk => ?held, fun hnone => ?none⟩,
    fun s hf hb => ⟨fun hnone => ?stay, fun k hk => ?leave⟩, fun σ a => transact_block σ⟩
  case held =>
    have hadv : s.advance.LowestHeld k := hk
    obtain ⟨hblock, hval, -⟩ := waitKey_writes_of_held x hadv
    obtain ⟨hpc, -⟩ := waitKey_frame s.advance x
    exact ⟨_, step_of_decode_ldVxK hr hx, hblock, (congrArg BitVec.toNat hval).trans (toNat_ofNat_key k), hpc, rfl⟩
  case none => rw [step_of_decode_ldVxK hr hx, State.waitKey_none s.advance x hnone]; rfl
  case stay =>
    obtain ⟨-, hstay, -⟩ := cycleWithoutAFetch s
    exact hstay hf hb hnone
  case leave =>
    obtain ⟨-, -, hleave, -⟩ := cycleWithoutAFetch s
    obtain ⟨t, ht, hblock, hval, -, hpc, -, -, -, -, -, -, -, hfault, -⟩ := hleave hf hb k hk
    exact ⟨t, ht, hblock, by rw [hval, toNat_ofNat_key], hpc, hfault.trans hf⟩

/-! ### Key events -/

/-- The flags after a key event. -/
theorem setKey_get (s : State) (k : Fin 16) (p : Bool) (j : Fin 16) :
    (setKey k p s).key.get j = if j = k then p else s.key.get j := by
  simp only [setKey, Vector.get_eq_getElem, Vector.getElem_set, Fin.ext_iff, eq_comm]

/-- With no key held, the one that is pressed is the lowest. -/
theorem lowestHeld_setKey {s : State} (h : ∀ j : Fin 16, s.key.get j = false) (k : Fin 16) : (setKey k true s).LowestHeld k := by
  refine ⟨by rw [setKey_get, if_pos rfl], fun j hj => ?_⟩
  rw [setKey_get, if_neg (Fin.ne_of_lt hj), h]

/-- A key that was not held, pressed and released, is as before. -/
theorem setKey_release {s : State} {k : Fin 16} (h : s.key.get k = false) : setKey k false (setKey k true s) = s := by
  have hget : ∀ j : Fin 16, (setKey k false (setKey k true s)).key.get j = s.key.get j := by
    intro j
    rw [setKey_get, setKey_get]
    split
    · next hj => rw [hj, h]
    · rfl
  have hkey : (setKey k false (setKey k true s)).key = s.key := Vector.ext fun j hj => hget ⟨j, hj⟩
  exact congrArg (fun ks => { s with key := ks }) hkey

/-- Settles O50: the flag written, and the two cycles of a waiting CORE: with the pressed key the lowest held, and with none. -/
theorem keyEventsWriteOneFlag : Obligations.KeyEventsWriteOneFlag := by
  refine fun s k p => ⟨setKey_get s k p, rfl, fun hf ⟨hb, hnone⟩ => ⟨?pressed, ?released⟩⟩
  case pressed =>
    obtain ⟨-, -, hleave, -⟩ := cycleWithoutAFetch (setKey k true s)
    obtain ⟨t, ht, hblock, hval, -, hpc, -⟩ := hleave hf hb k (lowestHeld_setKey hnone k)
    exact ⟨t, ht, hblock, (congrArg BitVec.toNat hval).trans (toNat_ofNat_key k), hpc⟩
  case released =>
    obtain ⟨-, hstay, -⟩ := cycleWithoutAFetch s
    rw [setKey_release (hnone k)]
    exact hstay hf hb hnone

end Sys2Proof.Machine
end

