-- ==== Sys2Proof/Proofs/HostTransactions.lean ====
section
/-! PROOF. What the host's transactions write and keep (47_host_interface R203 to R212, 10_state R37), the quiescent states, and the
walk of a CORE with nothing loaded (70_reset_and_hazards R253). -/

namespace Sys2Proof.Machine

/-! ### What a transaction writes -/

/-- No way a step ends writes a key flag. -/
theorem StepTo.keysKept {s t : State} (h : StepTo s t) : KeysKept s t := by
  cases h with
  | idle | unfetchable | fault => rfl
  | poll => exact State.waitKey_key ..
  | complete => exact completed_key ..

/-- A load that is done writes memory and the session's note; one that is not writes nothing. -/
theorem transact_load_frame (σ : Session) (b : List Byte) :
    ∃ m l, (transact σ (.load b)).1 = { σ with core := { σ.core with mem := m }, loaded := l } := by
  rw [transact_load]
  split
  · exact ⟨σ.core.mem, σ.loaded, rfl⟩
  · split
    · exact ⟨σ.core.mem, σ.loaded, rfl⟩
    · exact ⟨_, true, rfl⟩

/-- Settles O52: a cycle by the ways a step ends, the rest by their definitions. -/
theorem transactionsWriteOnlyWhatTheyName : Obligations.TransactionsWriteOnlyWhatTheyName := by
  intro σ
  refine ⟨?cycle, ⟨_, _, rfl⟩, fun k p => ⟨_, rfl⟩, transact_load_frame σ, fun r c => rfl, rfl, rfl⟩
  obtain ⟨t, ht⟩ := exists_stepTo σ.core
  rw [transact_cycle ht.step_eq]
  exact ht.keysKept

/-- Settles O51: a load by its three answers; one that is done is a run of writes that ends within memory. -/
theorem programLoadCopiesVerbatimOrFails : Obligations.ProgramLoadCopiesVerbatimOrFails := by
  intro σ b
  have hfresh : σ.cycled = false → σ.loaded = false → ¬ (σ.cycled || σ.loaded) = true := by
    intro hcycled hloaded
    simp [hcycled, hloaded]
  rw [transact_load]
  refine ⟨fun hcycled hloaded hlen => ?done, fun hcycled hloaded hlen => ?failed, fun h => ?refused⟩
  case done =>
    rw [if_neg (hfresh hcycled hloaded), if_neg (by omega)]
    exact ⟨_, rfl, fun j hj => read_writeList_add σ.core.mem 0x200 b hj (by omega),
      Memory.read_writeList_outside b σ.core.mem 0x200⟩
  case failed => rw [if_neg (hfresh hcycled hloaded), if_pos hlen]
  case refused => rw [if_pos (Bool.or_eq_true_iff.mpr h)]

/-! ### A recorded fault -/

/-- A cycle of a faulted CORE leaves it as it is. -/
theorem transact_cycle_core_of_faulted {σ : Session} (h : σ.core.Faulted) : (transact σ .cycle).1.core = σ.core := by
  rw [transact_cycle (step_faulted σ.core h)]

/-- Settles O13: a load writes only memory, a cycle of a faulted CORE nothing, the others only what they name. -/
theorem onlyAResetClearsAFault : Obligations.OnlyAResetClearsAFault := by
  intro σ a hf
  refine ⟨fun hreset => ?kept, transact_cycle_core_of_faulted hf, rfl, fun _ _ => rfl, rfl⟩
  cases a
  case reset => exact absurd rfl hreset
  case' load b =>
    obtain ⟨m, l, hload⟩ := transact_load_frame σ b
    rw [hload]
  case' cycle => rw [transact_cycle_core_of_faulted hf]
  all_goals exact ⟨⟨rfl, rfl, rfl⟩, fun _ => rfl, rfl, rfl, ⟨rfl, rfl⟩, fun _ _ => rfl⟩

/-! ### Quiescent states -/

/-- The jump to a fetchable address is the word of `JP` with that address (30_encoding R72). -/
theorem selfJump_word {a : Word} (h : a.toNat ≤ 0x0FFE) : 0x1000#16 + a = 0x1#4 ++ a.setWidth 12 := by
  have hlow : (a.setWidth 12).toNat = a.toNat := by
    rw [BitVec.toNat_setWidth]
    exact Nat.mod_eq_of_lt (by omega)
  rw [← BitVec.toNat_inj, BitVec.toNat_append, ← Nat.shiftLeft_add_eq_or_of_lt (a.setWidth 12).isLt, hlow, BitVec.toNat_add]
  exact Nat.mod_eq_of_lt (by simp; omega)

/-- The address of a self-loop survives the 12 bits of the jump's immediate. -/
theorem addrImm_setWidth {a : Word} (h : a.toNat ≤ 0x0FFE) : addrImm (a.setWidth 12) = a := by
  rw [← BitVec.toNat_inj, addrImm_toNat, BitVec.toNat_setWidth]
  exact Nat.mod_eq_of_lt (by omega)

/-- A cycle of a self-loop latches the jump and moves nothing. -/
theorem step_of_selfLoop {s : State} (h : s.SelfLoop) : step s = .next { s with ir := s.wordAtPc } := by
  obtain ⟨hr, hword⟩ := h
  have hjump : decode s.wordAtPc = .jp (s.pc.setWidth 12) := by rw [hword, selfJump_word hr.2.2, decode_jp_word]
  rw [step_of_exec_no_fault hr hjump (exec_jp _ s) hr.1, addrImm_setWidth hr.2.2]
  rfl

/-- Settles O55: the faulted and the waiting CORE by the cases of the cycle, the self-loop because nothing it consists of changed. -/
theorem quiescentStatesStay : Obligations.QuiescentStatesStay := by
  refine fun s => ⟨step_faulted s, fun ⟨hb, hnone⟩ => ?waiting, fun h => ⟨step_of_selfLoop h, h⟩⟩
  by_cases hf : s.fault = 0
  · rw [step_blocked s hf hb, pollWaitKey_of_none hb hnone]
  · exact step_faulted s hf

/-! ### A CORE with nothing loaded -/

/-- The state after `n` no-ops from reset. -/
def walked (n : Nat) : State := { State.reset with pc := BitVec.ofNat 16 (0x200 + 2 * n) }

/-- The state in which the walk ends. -/
def walkedOut : State := { State.reset with pc := 0x1000, fault := 1, faultPc := 0x1000, faultInfo := 0x1000 }

theorem resetByte_of_program {a : Nat} (h : 0x200 ≤ a) : resetByte a = 0 :=
  if_neg fun hfont => absurd hfont.2 (by simp; omega)

theorem walked_pc {n : Nat} (h : n ≤ 1792) : (walked n).pc.toNat = 0x200 + 2 * n :=
  Nat.mod_eq_of_lt (by omega)

/-- Before the end of memory a step of the walk is a no-op: the cells hold 0, and so does `IR`. -/
theorem step_walked {n : Nat} (h : n < 1792) : step (walked n) = .next (walked (n + 1)) := by
  have hpc := walked_pc h.le
  have hr : (walked n).Ready := ⟨rfl, rfl, by omega⟩
  have hword : (walked n).wordAtPc = 0 := by
    rw [State.wordAtPc, hpc]
    exact congrArg₂ (fun hi lo : Byte => hi ++ lo) (resetByte_of_program (by omega)) (resetByte_of_program (by omega))
  have hadv : (walked n).pc + 2 = (walked (n + 1)).pc := (BitVec.ofNat_add (0x200 + 2 * n) 2).symm
  rw [step_of_decode_nop hr (by rw [hword]; rfl), hword]
  exact congrArg (fun a => Host.Outcome.next { State.reset with pc := a }) hadv

/-- Past the last fetchable address the walk faults. -/
theorem step_walked_end : step (walked 1792) = .next walkedOut :=
  step_unfetchable (walked 1792) rfl rfl (by decide)

theorem step_walkedOut : step walkedOut = .next walkedOut := step_faulted walkedOut (by decide)

/-- One more step of a run is the step first. -/
theorem core_run_succ {s t : State} (n : Nat) (h : step s = .next t) : core.run (n + 1) s = core.run n t := by
  have hcore : core.step s = .next t := h
  simp only [Host.Core.run, hcore]

/-- Within memory the walk advances with every step. -/
theorem run_walked (n : Nat) : ∀ k, k + n ≤ 1792 → core.run n (walked k) = .next (walked (k + n)) := by
  induction n with
  | zero => intro k _; rfl
  | succ n ih =>
    intro k hk
    rw [core_run_succ n (step_walked (by omega)), ih (k + 1) (by omega), Nat.add_right_comm, Nat.add_assoc]

theorem run_walkedOut (n : Nat) : core.run n walkedOut = .next walkedOut := by
  induction n with
  | zero => rfl
  | succ n ih => rw [core_run_succ n step_walkedOut, ih]

/-- A run past the end of memory ends there. -/
theorem run_walked_past (n : Nat) : ∀ k, k ≤ 1792 → 1793 ≤ k + n → core.run n (walked k) = .next walkedOut := by
  induction n with
  | zero => intro k hk hn; omega
  | succ n ih =>
    intro k hk hn
    obtain hlt | rfl := Nat.lt_or_eq_of_le hk
    · rw [core_run_succ n (step_walked hlt), ih (k + 1) hlt (by omega)]
    · rw [core_run_succ n step_walked_end, run_walkedOut]

/-- Settles O56: reset is the walk's state after no step. -/
theorem unloadedCoreWalksToTheEndOfMemory : Obligations.UnloadedCoreWalksToTheEndOfMemory := by
  refine ⟨fun n hn => ?_, fun n hn => run_walked_past n 0 (by omega) (by omega)⟩
  have hrun := run_walked n 0 (by omega)
  rwa [Nat.zero_add] at hrun

end Sys2Proof.Machine
end
